-- ==== Sys2Proof/Word.lean ====
section
/-! DEFINITION. The word types of the block: bytes, 32-bit registers and byte sequences of a fixed length
(spec/00_scope.md R9, R11, R12). -/

namespace Sys2Proof

/-- An 8-bit unsigned value (R12). -/
abbrev Byte := BitVec 8

/-- A 32-bit register or command word (R9, R11). -/
abbrev Word := BitVec 32

/-- A byte sequence of exactly `n` bytes (R12). -/
abbrev Bytes (n : Nat) := { b : List Byte // b.length = n }

/-- A 16-byte block (R9 `BLOCK`). -/
abbrev Block := Bytes 16

/-- `rep(n, 0x00)` (R12). -/
def zeroBytes (n : Nat) : Bytes n := ⟨List.replicate n 0, List.length_replicate⟩

end Sys2Proof
end

