-- ==== Sys2Proof/Config.lean ====
section
/-! DEFINITION. Constants of the block (spec/00_scope.md R9), the platform's parameters (R10), the block primitive
(R17, R18) and the free bytes of a reset (spec/70_reset_and_hazards.md R241). -/

namespace Sys2Proof

/-- `BLOCK` (R9, 90_conflicts.md C7). -/
def Config.blockLen : Nat := 16

/-- `IV_LENGTH` (R9). -/
def Config.ivLen : Nat := 16

/-- `KEY_LENGTHS` (R9). -/
def Config.keyLengths : List Nat := [16, 24, 32]

/-- The largest `MEM_SIZE` (R10, `ADDR_W` = 32). -/
def Config.memLimit : Nat := 2 ^ 32

/-- Length of the register window in bytes (R31). -/
def Config.windowLen : Nat := 64

/-- The constant of the `ID` register (R33). -/
def Config.idWord : Word := 0x41455301

/-- The parameters R10 leaves open, fixed for a machine. They are plain data of `State` that no step changes, so a
statement about every state is a statement about every value of them (DESIGN CHOICE, log 3). -/
structure Params where
  memSize : Nat
  regBase : Nat
  deriving DecidableEq, Repr

/-- The block primitive (R17): for each key, a permutation of 16-byte blocks. R18 states that `AES_Enc(K, ·)` is a
bijection with `AES_Dec(K, ·)` undoing it, and that the rules rely on nothing else (DEDUCED, log 4). -/
opaque Config.aes (key : List Byte) : Equiv.Perm Block

/-- `AES_Enc(K, B)` (R17). -/
def Config.aesEnc (key : List Byte) (b : Block) : Block := Config.aes key b

/-- `AES_Dec(K, B)` (R17). -/
def Config.aesDec (key : List Byte) (b : Block) : Block := (Config.aes key).symm b

/-- The `n`-th free byte: what a byte of the write range holds after a reset with a command in flight (R241, log 8). -/
opaque Config.freeByte : Nat → Byte

end Sys2Proof
end

