-- ==== Sys2Proof/Syntax.lean ====
section
/-! DEFINITION. The nine commands of spec/30_encoding.md R102. A command word has no operand fields (R100), so no
constructor has an argument; the operands are fields of the command latch (R104). -/

namespace Sys2Proof

/-- One constructor per row of spec/opcode_table.json. -/
inductive Instr where
  | nop
  | config
  | encrypt
  | decrypt
  | pad
  | unpad
  | cbcenc
  | cbcdec
  | clear
  deriving DecidableEq, Repr

/-- All nine, in the table's order. -/
def Instr.all : List Instr := [.nop, .config, .encrypt, .decrypt, .pad, .unpad, .cbcenc, .cbcdec, .clear]

end Sys2Proof
end

