-- ==== Sys2Proof/WellFormed.lean ====
section
/-! DEFINITION. Well-formedness: of an instruction, of a command word (spec/30_encoding.md R100, R106, R107) and of the
platform's parameters (spec/00_scope.md R10). -/

namespace Sys2Proof

/-- A command has no register-number, immediate or mode field (R100), so there is nothing to check in one. -/
def Instr.wf : Instr → Bool
  | .nop => true
  | .config => true
  | .encrypt => true
  | .decrypt => true
  | .pad => true
  | .unpad => true
  | .cbcenc => true
  | .cbcdec => true
  | .clear => true

/-- `RSV`, bits 31:8, must be zero (R100, R106). -/
def rsvIsZero (w : Word) : Bool := w.extractLsb' 8 24 == 0

/-- `OPC`, bits 7:0, names a command (R106, R107). -/
def opcIsAssigned (w : Word) : Bool := (w.extractLsb' 0 8).toNat ≤ 8

/-- A legal command word (R106). -/
def wordWf (w : Word) : Bool := rsvIsZero w && opcIsAssigned w

/-- 1 ≤ `MEM_SIZE` ≤ 2^32, and `REG_BASE` is 64-byte aligned (R10). -/
def Params.wf (p : Params) : Bool :=
  1 ≤ p.memSize && p.memSize ≤ Config.memLimit && p.regBase % 64 == 0

end Sys2Proof
end

