-- ==== Sys2Proof/Decode.lean ====
section
/-! DEFINITION. Decoding and encoding of command words (spec/30_encoding.md R100 to R107). -/

namespace Sys2Proof

/-- Why a word is illegal; both raise `IllegalCommand` (R106). -/
inductive DecodeError where
  | reservedBitsSet
  | reservedOpcode
  deriving DecidableEq, Repr

/-- `OPC`, bits 7:0 (R100). -/
def opcOf (w : Word) : Nat := (w.extractLsb' 0 8).toNat

/-- `RSV`, bits 31:8 (R100). -/
def rsvOf (w : Word) : Nat := (w.extractLsb' 8 24).toNat

/-- The opcode map (R102); opcodes 0x09 to 0xFF are reserved (R107). -/
def instrOfOpc : Nat → Option Instr
  | 0x00 => some .nop
  | 0x01 => some .config
  | 0x02 => some .encrypt
  | 0x03 => some .decrypt
  | 0x04 => some .pad
  | 0x05 => some .unpad
  | 0x06 => some .cbcenc
  | 0x07 => some .cbcdec
  | 0x08 => some .clear
  | _ => none

/-- `decode(L.word)` (R106): the reserved field first, then the opcode. -/
def decode (w : Word) : Except DecodeError Instr :=
  if rsvOf w ≠ 0 then .error .reservedBitsSet
  else
    match instrOfOpc (opcOf w) with
    | some i => .ok i
    | none => .error .reservedOpcode

/-- The opcode of a command (R102). -/
def Instr.opc : Instr → Nat
  | .nop => 0x00
  | .config => 0x01
  | .encrypt => 0x02
  | .decrypt => 0x03
  | .pad => 0x04
  | .unpad => 0x05
  | .cbcenc => 0x06
  | .cbcdec => 0x07
  | .clear => 0x08

/-- The command word: `zext_32(OPC)` (R102). -/
def encode (i : Instr) : Word := BitVec.ofNat 32 i.opc

/-- The word the host's bus carries in four bytes, lowest address first (spec/20_memory.md R75). -/
def wordOfBytes (b0 b1 b2 b3 : Byte) : Word := b3 ++ b2 ++ b1 ++ b0

/-- The four bytes of a word, lowest address first (R75). -/
def bytesOfWord (w : Word) : List Byte :=
  [w.extractLsb' 0 8, w.extractLsb' 8 8, w.extractLsb' 16 8, w.extractLsb' 24 8]

/-- The decoder on bytes as the bus carries them: one word is four bytes, no other length is a command (R101). -/
def decodeBytes : List Byte → Option Instr
  | [b0, b1, b2, b3] => (decode (wordOfBytes b0 b1 b2 b3)).toOption
  | _ => none

/-- The number of an instruction's bits as the opcode table gives it, cut to `nbits` bits. -/
def tableWord (nbits w : Nat) : Word := BitVec.ofNat 32 (w % 2 ^ nbits)

/-- What the decoder reads from a word of the opcode table. -/
def decodeTableWord (nbits w : Nat) : Option Instr := decodeBytes (bytesOfWord (tableWord nbits w))

end Sys2Proof
end

