-- ==== Sys2Proof/Machine/State.lean ====
section
/-! DEFINITION. The state of the machine (spec/10_state.md R30 to R55), the data memory (spec/20_memory.md R72), the
host's pending accesses, and the state after reset (R55). -/

namespace Sys2Proof.Machine

/-- Why a run stops. None of these is an error of a command: an error of a command is a completion (R210). -/
inductive Fault where
  /-- Raised by a host access to the register window that is not 32 bits wide or not 4-byte aligned (R32). The spec
  makes it a fault of the host program; safe (log 11). -/
  | hostBusError
  /-- Raised by a host access to data memory that breaks the duties of R84 while a command is in flight; safe (log 11). -/
  | hostRace
  /-- Raised by a host access to data memory at or above `MEM_SIZE`, an address that does not exist (R72); safe (log 12). -/
  | hostNoSuchAddress
  deriving DecidableEq, Repr

/-- What the model gives no meaning. -/
inductive Refusal where
  /-- Raised by an arm of `exec` that has no meaning yet; safe. No arm is left that raises it. -/
  | notModelled (mnemonic : String)
  /-- Raised by a host bus access that does not begin in the register window, so that it selects another device of the
  platform, of which the spec says nothing (R80); safe (log 13). -/
  | outsideWindow
  deriving DecidableEq, Repr

/-- The error codes of spec/60_exceptions.md R200 other than `OK`. -/
inductive ErrCode where
  | invalidKeyLength
  | invalidIVLength
  | cipherInitError
  | malformedCiphertext
  | invalidPadding
  | notConfigured
  | illegalCommand
  | busFault
  | bufferOverlap
  | faultUnpadBounds
  | faultEmptyInput
  | faultPartialBlock
  deriving DecidableEq, Repr

/-- The registers of the window (R31). -/
inductive Reg where
  | id
  | ctrl
  | status
  | cmd
  | srcAddr
  | srcLen
  | dstAddr
  | outLen
  | keyAddr
  | keyLen
  | ivAddr
  | ivLen
  deriving DecidableEq, Repr

/-- Data memory: address and byte pairs, addresses strictly rising, no entry equal to `Memory.blank` (R72, log 5). -/
abbrev Memory := List Host.Cell

/-- What a byte that nothing has written reads as (DESIGN CHOICE, log 5). -/
def Memory.blank : Byte := 0

/-- `CTRL` (R34). -/
structure Ctrl where
  ie : Bool
  harden : Bool
  ctlenCheck : Bool
  deriving DecidableEq, Repr

/-- The stored fields of `STATUS` (R38); `CONFIGURED` and `KSIZE` are derived from the slot. -/
structure Status where
  busy : Bool
  done : Bool
  ovr : Bool
  err : Byte
  deriving DecidableEq, Repr

/-- The seven parameter registers (R47). -/
structure ParamRegs where
  srcAddr : Word
  srcLen : Word
  dstAddr : Word
  keyAddr : Word
  keyLen : Word
  ivAddr : Word
  ivLen : Word
  deriving DecidableEq, Repr

/-- The slot of the cipher object, `st.CONFIGURED`, `st.KLEN`, `st.KEY` and `st.IV` (R50). -/
structure Slot where
  configured : Bool
  klen : Nat
  key : Bytes 32
  iv : Bytes 16
  deriving DecidableEq, Repr

/-- The command latch `L` (R45, R46). -/
structure Latch where
  word : Word
  src : Word
  slen : Word
  dst : Word
  kaddr : Word
  klen : Word
  ivaddr : Word
  ivlen : Word
  harden : Bool
  ctlen : Bool
  deriving DecidableEq, Repr

/-- One access of the host (spec/30_encoding.md R108, spec/20_memory.md R72, R82). A bus access names a host address and a width in bits, so
that the accesses R32 rejects can be written down too (log 10). -/
inductive HostOp where
  | busWrite (addr width : Nat) (v : Word)
  | busRead (addr width : Nat)
  | poll (addr : Nat) (mask value : Word)
  | memWrite (addr : Nat) (b : Byte)
  | memRead (addr : Nat)
  | irqSample
  deriving DecidableEq, Repr

/-- Who moves next in the total order of R82 (log 2). -/
inductive Turn where
  | host
  | engine
  | reset
  deriving DecidableEq, Repr

/-- A value the host has read (R108 "recorded in the run's trace"). -/
inductive TraceEntry where
  | reg (addr : Nat) (v : Word)
  | mem (addr : Nat) (b : Byte)
  | irq (level : Bool)
  deriving DecidableEq, Repr

/-- What surrounds the block in the model: the model's own fields, not the spec's (log 8). -/
structure Env where
  host : List HostOp
  sched : List Turn
  trace : List TraceEntry
  draws : Nat
  deriving DecidableEq, Repr

/-- The machine: the block (R30), its data memory, the platform's parameters, and what surrounds it. -/
structure State where
  params : Params
  ctrl : Ctrl
  status : Status
  outLen : Word
  regs : ParamRegs
  slot : Slot
  latch : Latch
  mem : Memory
  env : Env
  /-- A completion with `ERR` at or above 0x20 is recorded as a fault of the run (R203, R261, log 1). -/
  faultSeen : Bool
  deriving DecidableEq, Repr

/-- `CTRL` after reset (R55). -/
def Ctrl.reset : Ctrl := { ie := false, harden := false, ctlenCheck := false }

/-- `STATUS` after reset (R55). -/
def Status.reset : Status := { busy := false, done := false, ovr := false, err := 0 }

/-- The parameter registers after reset (R55). -/
def ParamRegs.reset : ParamRegs :=
  { srcAddr := 0, srcLen := 0, dstAddr := 0, keyAddr := 0, keyLen := 0, ivAddr := 0, ivLen := 0 }

/-- The slot with nothing held: after reset (R55) and after CLEAR (R136). -/
def Slot.empty : Slot := { configured := false, klen := 0, key := zeroBytes 32, iv := zeroBytes 16 }

/-- The latch after reset: R55 calls it irrelevant, so all zero is a DESIGN CHOICE (log 7). -/
def Latch.reset : Latch :=
  { word := 0, src := 0, slen := 0, dst := 0, kaddr := 0, klen := 0, ivaddr := 0, ivlen := 0
    harden := false, ctlen := false }

/-- The parameters in `State.reset` (DESIGN CHOICE, log 3): the `MEM_SIZE` of spec/95_test_vectors.md, and base 0. -/
def Params.reset : Params := { memSize := 0x1000, regBase := 0 }

/-- No pending access, turn, trace entry or draw (DESIGN CHOICE, log 8). -/
def Env.reset : Env := { host := [], sched := [], trace := [], draws := 0 }

/-- The machine right after reset (R55, R242). -/
def State.reset : State :=
  { params := Params.reset
    ctrl := Ctrl.reset
    status := Status.reset
    outLen := 0
    regs := ParamRegs.reset
    slot := Slot.empty
    latch := Latch.reset
    mem := []
    env := Env.reset
    faultSeen := false }

end Sys2Proof.Machine
end

