-- ==== Sys2Proof/Machine/Ops.lean ====
section
/-! DEFINITION. The named operations over byte sequences, data memory, the slot and completion: the memory primitives
(spec/00_scope.md R14), the range rules (spec/20_memory.md R73, R89), issue (spec/10_state.md R45), and the two completion primitives
with the acknowledgement beside them (spec/60_exceptions.md R210, R211, R213), which are the block's trap entry and return. -/

namespace Sys2Proof.Machine

/-! ### Byte sequences (R12) -/

/-- The first `n` bytes of `b`, filled up with zero bytes where `b` is shorter. -/
def fitList : Nat → List Byte → List Byte
  | 0, _ => []
  | n + 1, [] => 0 :: fitList n []
  | n + 1, b :: bs => b :: fitList n bs

theorem length_fitList (n : Nat) (b : List Byte) : (fitList n b).length = n := by
  induction n generalizing b with
  | zero => simp [fitList]
  | succ n ih => cases b <;> simp [fitList, ih]

/-- `b` as a sequence of exactly `n` bytes. -/
def fit (n : Nat) (b : List Byte) : Bytes n := ⟨fitList n b, length_fitList n b⟩

/-- `xor(a, b)` on sequences of one length (R12). -/
def xorBytes {n : Nat} (a b : Bytes n) : Bytes n :=
  ⟨List.zipWith (fun x y => x ^^^ y) a.val b.val, by simp [a.property, b.property]⟩

/-! ### Data memory (R14, R72) -/

/-- The memory byte at an address. -/
def Memory.byte : Memory → Nat → Byte
  | [], _ => Memory.blank
  | (k, v) :: rest, a => if k = a then v else Memory.byte rest a

/-- Set the memory byte at an address, keeping the canonical form. -/
def Memory.store : Memory → Nat → Byte → Memory
  | [], a, b => if b = Memory.blank then [] else [(a, b)]
  | (k, v) :: rest, a, b =>
    if a < k then (if b = Memory.blank then (k, v) :: rest else (a, b) :: (k, v) :: rest)
    else if a = k then (if b = Memory.blank then rest else (a, b) :: rest)
    else (k, v) :: Memory.store rest a b

/-- The canonical form: addresses strictly rising, and no entry equal to what an unlisted address reads as. -/
abbrev Memory.wf (m : Memory) : Prop :=
  List.Pairwise (fun c d : Host.Cell => c.1 < d.1) m ∧ ∀ c ∈ m, c.2 ≠ Memory.blank

/-- `MemRead(a, n)` (R14): the byte at index `i` is the memory byte at `a + i`. -/
def Memory.readBytes (m : Memory) (a : Nat) : Nat → List Byte
  | 0 => []
  | n + 1 => m.byte a :: Memory.readBytes m (a + 1) n

/-- `MemWrite(a, len(v), v)` (R14): the memory byte at `a + i` becomes `v[i]`. -/
def Memory.writeBytes (m : Memory) (a : Nat) : List Byte → Memory
  | [] => m
  | b :: bs => Memory.writeBytes (m.store a b) (a + 1) bs

/-- `MemWrite` on the state. -/
def storeBytes (a : Nat) (v : List Byte) (s : State) : State := { s with mem := s.mem.writeBytes a v }

/-! ### Ranges (R73, R89) -/

/-- `Admit(a, n)` (R73), on naturals, without wrap. -/
def admitted (p : Params) (a n : Nat) : Bool := n == 0 || decide (a + n ≤ p.memSize)

/-- `Overlap(a, m, b, n)` (R89). -/
def overlaps (a m b n : Nat) : Bool := decide (m > 0 ∧ n > 0 ∧ a < b + n ∧ b < a + m)

/-- The bytes `[base, base + len)` of data memory. -/
structure Span where
  base : Nat
  len : Nat
  deriving DecidableEq, Repr

/-- The address lies in the range. -/
def Span.holds (r : Span) (a : Nat) : Bool := decide (r.base ≤ a ∧ a < r.base + r.len)

/-! ### The slot (R50, R51) -/

/-- `K = st.KEY[0..st.KLEN)` (R50). -/
def Slot.keyBytes (c : Slot) : List Byte := c.key.val.take c.klen

/-- Step 4 of construction (R132): `K ++ rep(32 − klen, 0x00)`, the key length and the IV, all together. -/
def Slot.construct (klen : Nat) (key iv : List Byte) : Slot :=
  { configured := true, klen := klen, key := fit 32 key, iv := fit 16 iv }

/-- Replace the slot as a whole. -/
def setSlot (c : Slot) (s : State) : State := { s with slot := c }

/-! ### Error codes (R200, R203) -/

/-- The numeric code (R200). -/
def ErrCode.byte : ErrCode → Byte
  | .invalidKeyLength => 0x01
  | .invalidIVLength => 0x02
  | .cipherInitError => 0x03
  | .malformedCiphertext => 0x04
  | .invalidPadding => 0x05
  | .notConfigured => 0x10
  | .illegalCommand => 0x11
  | .busFault => 0x12
  | .bufferOverlap => 0x13
  | .faultUnpadBounds => 0x20
  | .faultEmptyInput => 0x21
  | .faultPartialBlock => 0x22

/-- A completion with this code is a fault of the run (R203). -/
def isFaultByte (b : Byte) : Bool := 0x20 ≤ b.toNat

/-! ### Completion and acknowledgement (R210, R211, R213) -/

/-- What both completion primitives do: write `ERR` and `OUT_LEN`, clear `BUSY`, set `DONE`. A code at or above 0x20 is
recorded as a fault of the run (R203, R261, log 1). -/
def complete (code : Byte) (m : Nat) (s : State) : State :=
  { s with
    status := { s.status with err := code, busy := false, done := true }
    outLen := BitVec.ofNat 32 m
    faultSeen := s.faultSeen || isFaultByte code }

/-- `raise E` (R210): the error code, and output length 0. -/
def raise (e : ErrCode) (s : State) : State := complete e.byte 0 s

/-- `finish(OK, m)` (R211). -/
def finish (m : Nat) (s : State) : State := complete 0x00 m s

/-- A write of `v` to `STATUS` (R38): it clears `DONE` if `v[1]` and `OVR` if `v[3]`, and changes nothing else. Clearing `DONE` is
the host's acknowledgement of a completion, in place of a return (R213). -/
def ackStatus (v : Word) (s : State) : State :=
  { s with
    status :=
      { s.status with
        done := s.status.done && !v.getLsbD 1
        ovr := s.status.ovr && !v.getLsbD 3 } }

/-! ### Issue (R45) -/

/-- What the latch captures at issue (R45). -/
def latchOf (v : Word) (s : State) : Latch :=
  { word := v
    src := s.regs.srcAddr
    slen := s.regs.srcLen
    dst := s.regs.dstAddr
    kaddr := s.regs.keyAddr
    klen := s.regs.keyLen
    ivaddr := s.regs.ivAddr
    ivlen := s.regs.ivLen
    harden := s.ctrl.harden
    ctlen := s.ctrl.ctlenCheck }

/-- The issue of a command (R45, second branch). -/
def issue (v : Word) (s : State) : State :=
  { s with latch := latchOf v s, status := { s.status with busy := true, done := false, err := 0x00 } }

/-- A command lost because one is in flight (R43, R45, first branch). -/
def markOverrun (s : State) : State := { s with status := { s.status with ovr := true } }

/-- A write of `v` to `CMD` (R45). -/
def writeCmd (v : Word) (s : State) : State := if s.status.busy then markOverrun s else issue v s

/-! ### What surrounds the block -/

/-- The turns that are left once one is taken. -/
def popTurn (s : State) : State := { s with env := { s.env with sched := s.env.sched.tail } }

/-- The engine's turn comes next. -/
def engineNext (s : State) : State := { s with env := { s.env with sched := .engine :: s.env.sched } }

/-- The host accesses that are left once one is done. -/
def popHost (s : State) : State := { s with env := { s.env with host := s.env.host.tail } }

/-- Record a value the host has read (R108). -/
def record (e : TraceEntry) (s : State) : State := { s with env := { s.env with trace := s.env.trace ++ [e] } }

/-- A command word placed as a host's write to `CMD` places it (R45, R87), whatever was in flight before, with the engine to
move next: how the model's `withFetchWord` puts an instruction where the engine takes it from (log 9). -/
def placeCommand (v : Word) (s : State) : State :=
  engineNext (issue v { s with status := { s.status with busy := false } })

end Sys2Proof.Machine
end

