-- ==== Sys2Proof/Machine/Flags.lean ====
section
/-! DEFINITION. The status and control words and the interrupt output (spec/10_state.md R33 to R45, spec/60_exceptions.md R215). -/

namespace Sys2Proof.Machine

/-- `STATUS.KSIZE` (R44). A key length other than 16, 24 or 32 in a held slot, which R50 rules out, reads 0 (log 15). -/
def ksize (c : Slot) : Nat :=
  if c.configured then
    if c.klen = 16 then 1 else if c.klen = 24 then 2 else if c.klen = 32 then 3 else 0
  else 0

/-- What a read of `STATUS` returns (R38). -/
def statusWord (s : State) : Word :=
  BitVec.ofNat 32
    (ksize s.slot * 2 ^ 16 + s.status.err.toNat * 2 ^ 8 + s.status.ovr.toNat * 8 + s.slot.configured.toNat * 4
      + s.status.done.toNat * 2 + s.status.busy.toNat)

/-- What a read of `CTRL` returns (R34). -/
def ctrlWord (c : Ctrl) : Word := BitVec.ofNat 32 (c.ctlenCheck.toNat * 4 + c.harden.toNat * 2 + c.ie.toNat)

/-- What a write of `v` to `CTRL` stores (R34); bits 31 to 3 are ignored. -/
def ctrlOfWord (v : Word) : Ctrl := { ie := v.getLsbD 0, harden := v.getLsbD 1, ctlenCheck := v.getLsbD 2 }

/-- A write of `v` to `CTRL` (R34), accepted at any time. -/
def writeCtrl (v : Word) (s : State) : State := { s with ctrl := ctrlOfWord v }

/-- The interrupt output `CTRL.IE AND STATUS.DONE` (R215). -/
def irq (s : State) : Bool := s.ctrl.ie && s.status.done

end Sys2Proof.Machine
end

