-- ==== Sys2Proof/Machine/Operands.lean ====
section
/-! DEFINITION. The operands of the commands (spec/30_encoding.md R104, R105) and the checks each command makes before its data phase,
in the order of spec/60_exceptions.md R206. Every operand is a latch field read as an unsigned natural (R105). -/

namespace Sys2Proof.Machine

/-- `L.src` as a byte address (R105). -/
def Latch.srcN (l : Latch) : Nat := l.src.toNat
/-- `L.slen` as a byte count (R105). -/
def Latch.slenN (l : Latch) : Nat := l.slen.toNat
/-- `L.dst` as a byte address (R105). -/
def Latch.dstN (l : Latch) : Nat := l.dst.toNat
/-- `L.kaddr` as a byte address (R105). -/
def Latch.kaddrN (l : Latch) : Nat := l.kaddr.toNat
/-- `L.klen` as a byte count (R105). -/
def Latch.klenN (l : Latch) : Nat := l.klen.toNat
/-- `L.ivaddr` as a byte address (R105). -/
def Latch.ivaddrN (l : Latch) : Nat := l.ivaddr.toNat
/-- `L.ivlen` as a byte count (R105). -/
def Latch.ivlenN (l : Latch) : Nat := l.ivlen.toNat

/-- `padcount(l)` (spec/41_padding.md R150). -/
def padcount (l : Nat) : Nat := 16 - l % 16

/-- The bytes `[L.src, L.src + L.slen)` of data memory: the input of every data command. -/
def inputBytes (s : State) : List Byte := s.mem.readBytes s.latch.srcN s.latch.slenN

/-- Step 4 and 5 of R206 for a data command that reads `n` bytes at `a` and writes `m` bytes at `b`. -/
def rangeCheck (p : Params) (a n b m : Nat) : Option ErrCode :=
  if !admitted p a n then some .busFault
  else if !admitted p b m then some .busFault
  else if overlaps a n b m then some .bufferOverlap
  else none

/-- The checks of CONFIG (R132 to R134), the key's before the IV's. -/
def configCheck (s : State) : Option ErrCode :=
  if !Config.keyLengths.contains s.latch.klenN then some .invalidKeyLength
  else if s.latch.ivlenN ≠ Config.ivLen then some .invalidIVLength
  else if !admitted s.params s.latch.kaddrN s.latch.klenN then some .busFault
  else if !admitted s.params s.latch.ivaddrN Config.ivLen then some .busFault
  else none

/-- The checks of PAD (R154). -/
def padCheck (s : State) : Option ErrCode :=
  rangeCheck s.params s.latch.srcN s.latch.slenN s.latch.dstN (s.latch.slenN + padcount s.latch.slenN)

/-- The check of UNPAD before its data phase (R155). -/
def unpadCheck (s : State) : Option ErrCode :=
  if !admitted s.params s.latch.srcN s.latch.slenN then some .busFault else none

/-- The checks of ENCRYPT (R180). -/
def encryptCheck (s : State) : Option ErrCode :=
  if !s.slot.configured then some .notConfigured
  else rangeCheck s.params s.latch.srcN s.latch.slenN s.latch.dstN (s.latch.slenN + padcount s.latch.slenN)

/-- The checks of DECRYPT before its data phase (R182). -/
def decryptCheck (s : State) : Option ErrCode :=
  if !s.slot.configured then some .notConfigured
  else if s.latch.slenN % 16 ≠ 0 then
    (if s.latch.ctlen then some .malformedCiphertext else some .faultPartialBlock)
  else rangeCheck s.params s.latch.srcN s.latch.slenN s.latch.dstN s.latch.slenN

/-- The checks of CBCENC (R183): it checks for whole blocks whatever `CTLEN_CHECK` holds. -/
def cbcencCheck (s : State) : Option ErrCode :=
  if !s.slot.configured then some .notConfigured
  else if s.latch.slenN % 16 ≠ 0 then some .malformedCiphertext
  else rangeCheck s.params s.latch.srcN s.latch.slenN s.latch.dstN s.latch.slenN

/-- The checks of CBCDEC (R184). -/
def cbcdecCheck (s : State) : Option ErrCode :=
  if !s.slot.configured then some .notConfigured
  else if s.latch.slenN % 16 ≠ 0 then some .malformedCiphertext
  else rangeCheck s.params s.latch.srcN s.latch.slenN s.latch.dstN s.latch.slenN

/-- The first `raise` a command reaches before its data phase, if any (R206). -/
def dataPhaseCheck : Instr → State → Option ErrCode
  | .nop, _ => none
  | .config, s => configCheck s
  | .encrypt, s => encryptCheck s
  | .decrypt, s => decryptCheck s
  | .pad, s => padCheck s
  | .unpad, s => unpadCheck s
  | .cbcenc, s => cbcencCheck s
  | .cbcdec, s => cbcdecCheck s
  | .clear, _ => none

/-- The ranges a command reads and writes (R90). -/
structure Footprint where
  reads : List Span
  writes : List Span
  deriving DecidableEq, Repr

/-- No byte read, none written. -/
def Footprint.empty : Footprint := { reads := [], writes := [] }

/-- The table of R90 for a command that reaches its data phase. -/
def tableFootprint (i : Instr) (l : Latch) : Footprint :=
  match i with
  | .nop => Footprint.empty
  | .config => { reads := [⟨l.kaddrN, l.klenN⟩, ⟨l.ivaddrN, Config.ivLen⟩], writes := [] }
  | .encrypt => { reads := [⟨l.srcN, l.slenN⟩], writes := [⟨l.dstN, l.slenN + padcount l.slenN⟩] }
  | .decrypt => { reads := [⟨l.srcN, l.slenN⟩], writes := [⟨l.dstN, l.slenN⟩] }
  | .pad => { reads := [⟨l.srcN, l.slenN⟩], writes := [⟨l.dstN, l.slenN + padcount l.slenN⟩] }
  | .unpad => { reads := [⟨l.srcN, l.slenN⟩], writes := [] }
  | .cbcenc => { reads := [⟨l.srcN, l.slenN⟩], writes := [⟨l.dstN, l.slenN⟩] }
  | .cbcdec => { reads := [⟨l.srcN, l.slenN⟩], writes := [⟨l.dstN, l.slenN⟩] }
  | .clear => Footprint.empty

/-- The ranges of R90 for a command, less what it does not reach: "A command that raises an error reads and writes only
what its rule reaches before the raise" (R90, log 6). -/
def instrFootprint (i : Instr) (s : State) : Footprint :=
  match dataPhaseCheck i s with
  | some _ => Footprint.empty
  | none => tableFootprint i s.latch

/-- The ranges of the command in flight; a word that fails decode has none (R106). -/
def footprint (s : State) : Footprint :=
  match decode s.latch.word with
  | .ok i => instrFootprint i s
  | .error _ => Footprint.empty

/-- The command reads the byte. -/
def Footprint.readsByte (f : Footprint) (a : Nat) : Bool := f.reads.any (fun r => r.holds a)

/-- The command writes the byte. -/
def Footprint.writesByte (f : Footprint) (a : Nat) : Bool := f.writes.any (fun r => r.holds a)

end Sys2Proof.Machine
end

