-- ==== Sys2Proof/Machine/Padding.lean ====
section
/-! DEFINITION. The padding codec and its two commands PAD and UNPAD (spec/41_padding.md). -/

namespace Sys2Proof.Machine

/-- `Pad(b)` (R151): the pad count appended that many times. -/
def padBytes (b : List Byte) : List Byte :=
  b ++ List.replicate (padcount b.length) (BitVec.ofNat 8 (padcount b.length))

/-- `UnpadF(b)`, the fidelity variant (R152). -/
def unpadF (b : List Byte) : Except ErrCode Nat :=
  match b.getLast? with
  | none => .error .faultEmptyInput
  | some n => if n.toNat > b.length then .error .faultUnpadBounds else .ok (b.length - n.toNat)

/-- `UnpadH(b)`, the hardened variant (R153). -/
def unpadH (b : List Byte) : Except ErrCode Nat :=
  match b.getLast? with
  | none => .error .invalidPadding
  | some n =>
    if n.toNat < 1 ∨ n.toNat > 16 ∨ n.toNat > b.length then .error .invalidPadding
    else if b.drop (b.length - n.toNat) ≠ List.replicate n.toNat n then .error .invalidPadding
    else .ok (b.length - n.toNat)

/-- `Unpad(b, h)` (R156). -/
def unpadBytes (b : List Byte) (harden : Bool) : Except ErrCode Nat := if harden then unpadH b else unpadF b

/-- End a command with the length an unpad keeps, or with the code it raises (R155, R182). -/
def finishUnpad (r : Except ErrCode Nat) (s : State) : State :=
  match r with
  | .ok m => finish m s
  | .error e => raise e s

/-- PAD (R154). -/
def execPad (s : State) : Host.Outcome State Fault Refusal :=
  match padCheck s with
  | some e => .next (raise e s)
  | none =>
    .next (finish (s.latch.slenN + padcount s.latch.slenN) (storeBytes s.latch.dstN (padBytes (inputBytes s)) s))

/-- UNPAD (R155); it writes no memory. -/
def execUnpad (s : State) : Host.Outcome State Fault Refusal :=
  match unpadCheck s with
  | some e => .next (raise e s)
  | none => .next (finishUnpad (unpadBytes (inputBytes s) s.latch.harden) s)

end Sys2Proof.Machine
end

