-- ==== Sys2Proof/Machine/Cbc.lean ====
section
/-! DEFINITION. CBC chaining and the commands ENCRYPT, DECRYPT, CBCENC and CBCDEC (spec/42_cbc.md). -/

namespace Sys2Proof.Machine

/-- The first `k` blocks of a byte sequence (R74, R170). -/
def splitBlocks : Nat → List Byte → List Block
  | 0, _ => []
  | k + 1, b => fit 16 b :: splitBlocks k (b.drop 16)

/-- The blocks one after another. -/
def joinBlocks : List Block → List Byte
  | [] => []
  | b :: bs => b.val ++ joinBlocks bs

/-- The loop of `CBCEnc` (R170), over the chaining value `CV` (R53) and the blocks still to come. -/
def cbcEncLoop (enc : Block → Block) : Block → List Block → List Block
  | _, [] => []
  | cv, p :: ps => enc (xorBytes p cv) :: cbcEncLoop enc (enc (xorBytes p cv)) ps

/-- The loop of `CBCDec` (R171), over the previous ciphertext block and the blocks still to come. -/
def cbcDecLoop (dec : Block → Block) : Block → List Block → List Block
  | _, [] => []
  | prev, c :: cs => xorBytes (dec c) prev :: cbcDecLoop dec c cs

/-- `CBCEnc(K, IV, P)` for whole blocks (R170). -/
def cbcEnc (key : List Byte) (iv : Block) (p : List Byte) : List Byte :=
  joinBlocks (cbcEncLoop (Config.aesEnc key) iv (splitBlocks (p.length / 16) p))

/-- `CBCDec(K, IV, C)` for whole blocks (R171). -/
def cbcDec (key : List Byte) (iv : Block) (c : List Byte) : List Byte :=
  joinBlocks (cbcDecLoop (Config.aesDec key) iv (splitBlocks (c.length / 16) c))

/-- The chained plaintext of DECRYPT and CBCDEC (R182, R184). -/
def chainedPlaintext (s : State) : List Byte := cbcDec s.slot.keyBytes s.slot.iv (inputBytes s)

/-- ENCRYPT (R180). -/
def execEncrypt (s : State) : Host.Outcome State Fault Refusal :=
  match encryptCheck s with
  | some e => .next (raise e s)
  | none =>
    .next (finish (s.latch.slenN + padcount s.latch.slenN)
      (storeBytes s.latch.dstN (cbcEnc s.slot.keyBytes s.slot.iv (padBytes (inputBytes s))) s))

/-- DECRYPT (R182): it writes the whole chained plaintext and only then unpads it (R185). -/
def execDecrypt (s : State) : Host.Outcome State Fault Refusal :=
  match decryptCheck s with
  | some e => .next (raise e s)
  | none =>
    .next (finishUnpad (unpadBytes (chainedPlaintext s) s.latch.harden) (storeBytes s.latch.dstN (chainedPlaintext s) s))

/-- CBCENC (R183). -/
def execCbcenc (s : State) : Host.Outcome State Fault Refusal :=
  match cbcencCheck s with
  | some e => .next (raise e s)
  | none =>
    .next (finish s.latch.slenN (storeBytes s.latch.dstN (cbcEnc s.slot.keyBytes s.slot.iv (inputBytes s)) s))

/-- CBCDEC (R184). -/
def execCbcdec (s : State) : Host.Outcome State Fault Refusal :=
  match cbcdecCheck s with
  | some e => .next (raise e s)
  | none => .next (finish s.latch.slenN (storeBytes s.latch.dstN (chainedPlaintext s) s))

end Sys2Proof.Machine
end

