-- ==== Sys2Proof/Machine/Lifecycle.lean ====
section
/-! DEFINITION. NOP, CONFIG and CLEAR (spec/40_construction.md). -/

namespace Sys2Proof.Machine

/-- NOP (R131). -/
def execNop (s : State) : Host.Outcome State Fault Refusal := .next (finish 0 s)

/-- The slot CONFIG builds from the key and the IV in data memory (R132 steps 3 and 4). -/
def constructed (s : State) : Slot :=
  Slot.construct s.latch.klenN (s.mem.readBytes s.latch.kaddrN s.latch.klenN)
    (s.mem.readBytes s.latch.ivaddrN Config.ivLen)

/-- CONFIG (R132): all-or-nothing (R135), and it replaces a held slot as a whole (R138). -/
def execConfig (s : State) : Host.Outcome State Fault Refusal :=
  match configCheck s with
  | some e => .next (raise e s)
  | none => .next (finish 0 (setSlot (constructed s) s))

/-- CLEAR (R136). -/
def execClear (s : State) : Host.Outcome State Fault Refusal := .next (finish 0 (setSlot Slot.empty s))

end Sys2Proof.Machine
end

