-- ==== Sys2Proof/Machine/Host.lean ====
section
/-! DEFINITION. What the host can do to the block: register reads and writes (spec/10_state.md R31 to R47), its own accesses to data
memory with the duties of spec/20_memory.md R84, and a look at the interrupt output. -/

namespace Sys2Proof.Machine

/-! ### The register window (R31, R75) -/

/-- The byte offset of a register (R31). -/
def Reg.offset : Reg → Nat
  | .id => 0x00
  | .ctrl => 0x04
  | .status => 0x08
  | .cmd => 0x0C
  | .srcAddr => 0x10
  | .srcLen => 0x14
  | .dstAddr => 0x18
  | .outLen => 0x1C
  | .keyAddr => 0x20
  | .keyLen => 0x24
  | .ivAddr => 0x28
  | .ivLen => 0x2C

/-- The register at an aligned offset; 0x30 to 0x3C are reserved and hold none (R31). -/
def regAt : Nat → Option Reg
  | 0x00 => some .id
  | 0x04 => some .ctrl
  | 0x08 => some .status
  | 0x0C => some .cmd
  | 0x10 => some .srcAddr
  | 0x14 => some .srcLen
  | 0x18 => some .dstAddr
  | 0x1C => some .outLen
  | 0x20 => some .keyAddr
  | 0x24 => some .keyLen
  | 0x28 => some .ivAddr
  | 0x2C => some .ivLen
  | _ => none

/-- The host address of a register (R31, R71). -/
def Reg.addr (p : Params) (r : Reg) : Nat := p.regBase + r.offset

/-- `reg[NAME]` (R13): what an aligned 32-bit read of the register returns. -/
def readReg (r : Reg) (s : State) : Word :=
  match r with
  | .id => Config.idWord
  | .ctrl => ctrlWord s.ctrl
  | .status => statusWord s
  | .cmd => 0
  | .srcAddr => s.regs.srcAddr
  | .srcLen => s.regs.srcLen
  | .dstAddr => s.regs.dstAddr
  | .outLen => s.outLen
  | .keyAddr => s.regs.keyAddr
  | .keyLen => s.regs.keyLen
  | .ivAddr => s.regs.ivAddr
  | .ivLen => s.regs.ivLen

/-- Replace the parameter registers as a whole. -/
def setRegs (r : ParamRegs) (s : State) : State := { s with regs := r }

/-- `reg[NAME] <- v` (R13): an aligned 32-bit write. `ID` and `OUT_LEN` ignore it (R33, R41). -/
def writeReg (r : Reg) (v : Word) (s : State) : State :=
  match r with
  | .id => s
  | .ctrl => writeCtrl v s
  | .status => ackStatus v s
  | .cmd => writeCmd v s
  | .srcAddr => setRegs { s.regs with srcAddr := v } s
  | .srcLen => setRegs { s.regs with srcLen := v } s
  | .dstAddr => setRegs { s.regs with dstAddr := v } s
  | .outLen => s
  | .keyAddr => setRegs { s.regs with keyAddr := v } s
  | .keyLen => setRegs { s.regs with keyLen := v } s
  | .ivAddr => setRegs { s.regs with ivAddr := v } s
  | .ivLen => setRegs { s.regs with ivLen := v } s

/-- A read of a window offset: a reserved offset reads 0 (R31, R32). -/
def readOffset (off : Nat) (s : State) : Word :=
  match regAt off with
  | some r => readReg r s
  | none => 0

/-- A write of a window offset: a reserved offset ignores it (R31, R32). -/
def writeOffset (off : Nat) (v : Word) (s : State) : State :=
  match regAt off with
  | some r => writeReg r v s
  | none => s

/-- The byte the host's bus carries at offset `off + k` of an aligned 32-bit read at `off`, for `k` = 0 to 3 (R75). -/
def windowByte (off k : Nat) (s : State) : Byte := (readOffset off s).extractLsb' (8 * k) 8

/-- What an access at a host address of a width in bits reaches. -/
inductive BusTarget where
  | offset (off : Nat)
  | error
  | elsewhere
  deriving DecidableEq, Repr

/-- R32: only 32-bit accesses at a multiple of 4 reach a register; any other access of the window gets a bus error. An
access that does not begin in the window is not this block's (log 13). -/
def busTarget (p : Params) (addr width : Nat) : BusTarget :=
  if p.regBase ≤ addr ∧ addr < p.regBase + Config.windowLen then
    (if width = 32 ∧ (addr - p.regBase) % 4 = 0 then .offset (addr - p.regBase) else .error)
  else .elsewhere

/-! ### Data memory and the duties of the host (R84) -/

/-- The host must not write this byte now: the command in flight reads or writes it (R84). -/
def writeRaces (s : State) (a : Nat) : Bool :=
  s.status.busy && ((footprint s).readsByte a || (footprint s).writesByte a)

/-- The host must not read this byte now: the command in flight writes it (R84). -/
def readRaces (s : State) (a : Nat) : Bool := s.status.busy && (footprint s).writesByte a

/-! ### One access -/

/-- A write of `v` of a width in bits at a host address. -/
def busWrite (addr width : Nat) (v : Word) (s : State) : Host.Outcome State Fault Refusal :=
  match busTarget s.params addr width with
  | .offset off => .next (writeOffset off v s)
  | .error => .fault .hostBusError
  | .elsewhere => .refused .outsideWindow

/-- A read of a width in bits at a host address; it records the value and changes nothing else (R79, R108). -/
def busRead (addr width : Nat) (s : State) : Host.Outcome State Fault Refusal :=
  match busTarget s.params addr width with
  | .offset off => .next (record (.reg addr (readOffset off s)) s)
  | .error => .fault .hostBusError
  | .elsewhere => .refused .outsideWindow

/-- The host writes one byte of data memory. -/
def hostStore (a : Nat) (b : Byte) (s : State) : Host.Outcome State Fault Refusal :=
  if s.params.memSize ≤ a then .fault .hostNoSuchAddress
  else if writeRaces s a then .fault .hostRace
  else .next (storeBytes a [b] s)

/-- The host reads one byte of data memory and records it. -/
def hostLoad (a : Nat) (s : State) : Host.Outcome State Fault Refusal :=
  if s.params.memSize ≤ a then .fault .hostNoSuchAddress
  else if readRaces s a then .fault .hostRace
  else .next (record (.mem a (s.mem.byte a)) s)

/-- One read of a `poll` (R108): with the wanted value it is done, otherwise the same line comes again. -/
def pollOnce (addr : Nat) (mask value : Word) (s : State) : Host.Outcome State Fault Refusal :=
  match busTarget s.params addr 32 with
  | .offset off =>
    .next (record (.reg addr (readOffset off s)) (if readOffset off s &&& mask = value then popHost s else s))
  | .error => .fault .hostBusError
  | .elsewhere => .refused .outsideWindow

/-- The host's next access, taken from its list; with none left the host does nothing (R226, log 18). -/
def hostMove (s : State) : Host.Outcome State Fault Refusal :=
  match s.env.host with
  | [] => .next s
  | .busWrite addr width v :: _ => busWrite addr width v (popHost s)
  | .busRead addr width :: _ => busRead addr width (popHost s)
  | .poll addr mask value :: _ => pollOnce addr mask value s
  | .memWrite a b :: _ => hostStore a b (popHost s)
  | .memRead a :: _ => hostLoad a (popHost s)
  | .irqSample :: _ => .next (record (.irq (irq s)) (popHost s))

end Sys2Proof.Machine
end

