-- ==== Sys2Proof/Machine/Reset.lean ====
section
/-! DEFINITION. The platform's reset (spec/70_reset_and_hazards.md R240, R241). -/

namespace Sys2Proof.Machine

/-- `n` free bytes, drawn from number `d` on (R241, log 8). -/
def freeBytes (d : Nat) : Nat → List Byte
  | 0 => []
  | n + 1 => Config.freeByte d :: freeBytes (d + 1) n

/-- Every byte of one range becomes a free byte. -/
def scrambleSpan (r : Span) (s : State) : State :=
  { s with
    mem := s.mem.writeBytes r.base (freeBytes s.env.draws r.len)
    env := { s.env with draws := s.env.draws + r.len } }

/-- Every byte of the write range of a command in flight becomes a free byte; with none in flight nothing does (R241). -/
def scramble (s : State) : State :=
  if s.status.busy then (footprint s).writes.foldl (fun t r => scrambleSpan r t) s else s

/-- Every piece of state of the block at its reset value (R55, R240). Data memory, the platform's parameters and what surrounds
the block are not part of it (R30, log 8). -/
def resetBlock (s : State) : State :=
  { State.reset with params := s.params, mem := s.mem, env := s.env, faultSeen := s.faultSeen }

/-- The reset input is asserted: it abandons a command in flight (R240, R241). -/
def platformReset (s : State) : State := resetBlock (scramble s)

end Sys2Proof.Machine
end

