-- ==== Sys2Proof/Machine/Perform.lean ====
section
/-! DEFINITION. The engine's atomic step (spec/40_construction.md R130) and who moves in a turn (spec/20_memory.md R82, log 2). -/

namespace Sys2Proof.Machine

/-- `perform()` (R130): decode the latched word, then run the body of the command; an illegal word raises
`IllegalCommand` (R106). -/
def perform (s : State) : Host.Outcome State Fault Refusal :=
  match decode s.latch.word with
  | .ok i => exec i s
  | .error _ => .next (raise .illegalCommand s)

/-- The engine's turn: it performs a command in flight, and with none it does nothing (R226). -/
def engineTurn (s : State) : Host.Outcome State Fault Refusal := if s.status.busy then perform s else .next s

/-- One turn of the schedule. -/
def takeTurn : Turn → State → Host.Outcome State Fault Refusal
  | .host, s => hostMove s
  | .engine, s => engineTurn s
  | .reset, s => .next (platformReset s)

/-- Who moves where the schedule names nobody: the engine if a command is in flight, else the host (R252, log 2). -/
def freeTurn (s : State) : Host.Outcome State Fault Refusal := if s.status.busy then perform s else hostMove s

end Sys2Proof.Machine
end

