-- ==== Sys2Proof/Machine/Step.lean ====
section
/-! DEFINITION. One step of the machine: one event of the total order of spec/20_memory.md R82. -/

namespace Sys2Proof.Machine

/-- One event: the next turn of the schedule, or a free turn where the schedule is used up. -/
def step (s : State) : Host.Outcome State Fault Refusal :=
  match s.env.sched with
  | [] => freeTurn s
  | t :: _ => takeTurn t (popTurn s)

/-- The state in which the next step runs the instruction with these bits: the word is issued as a host's write to `CMD`
issues it and the engine moves next (R45, R87, log 9). -/
def State.withFetchWord (s : State) (nbits w : Nat) : State := placeCommand (tableWord nbits w) s

end Sys2Proof.Machine
end

