-- ==== Sys2Proof/Machine/Script.lean ====
section
/-! DEFINITION. The host-script syntax and its pseudo-instructions (spec/30_encoding.md R108, R109). -/

namespace Sys2Proof.Machine

/-- A line of a host program (R108, R109). -/
inductive Line where
  | mem (addr : Nat) (bytes : List Byte)
  | wr (r : Reg) (v : Word)
  | rd (r : Reg)
  | poll (r : Reg) (mask value : Word)
  | nop
  | config (ka kl ia il : Word)
  | encrypt (s l d : Word)
  | decrypt (s l d : Word)
  | pad (s l d : Word)
  | unpad (s l : Word)
  | cbcenc (s l d : Word)
  | cbcdec (s l d : Word)
  | clear
  | ctrl (ie h c : Bool)
  | wait
  | ack
  deriving DecidableEq, Repr

/-- `wr REG, VALUE`: one aligned 32-bit write (R108). -/
def wrOp (p : Params) (r : Reg) (v : Word) : HostOp := .busWrite (r.addr p) 32 v

/-- `rd REG`: one aligned 32-bit read (R108). -/
def rdOp (p : Params) (r : Reg) : HostOp := .busRead (r.addr p) 32

/-- `poll REG, MASK, VALUE` (R108). -/
def pollOp (p : Params) (r : Reg) (mask value : Word) : HostOp := .poll (r.addr p) mask value

/-- The shape of a data pseudo-instruction with an output buffer (R109). -/
def dataOps (p : Params) (i : Instr) (s l d : Word) : List HostOp :=
  [wrOp p .srcAddr s, wrOp p .srcLen l, wrOp p .dstAddr d, wrOp p .cmd (encode i)]

/-- The host accesses a line stands for, in the order shown (R109). `.mem` is a directive and stands for none (R108). -/
def Line.expand (p : Params) : Line → List HostOp
  | .mem _ _ => []
  | .wr r v => [wrOp p r v]
  | .rd r => [rdOp p r]
  | .poll r mask value => [pollOp p r mask value]
  | .nop => [wrOp p .cmd (encode .nop)]
  | .config ka kl ia il =>
    [wrOp p .keyAddr ka, wrOp p .keyLen kl, wrOp p .ivAddr ia, wrOp p .ivLen il, wrOp p .cmd (encode .config)]
  | .encrypt s l d => dataOps p .encrypt s l d
  | .decrypt s l d => dataOps p .decrypt s l d
  | .pad s l d => dataOps p .pad s l d
  | .unpad s l => [wrOp p .srcAddr s, wrOp p .srcLen l, wrOp p .cmd (encode .unpad)]
  | .cbcenc s l d => dataOps p .cbcenc s l d
  | .cbcdec s l d => dataOps p .cbcdec s l d
  | .clear => [wrOp p .cmd (encode .clear)]
  | .ctrl ie h c => [wrOp p .ctrl (ctrlWord { ie := ie, harden := h, ctlenCheck := c })]
  | .wait => [pollOp p .status 0x1 0x0]
  | .ack => [wrOp p .status 0x2]

/-- A `.mem` directive names bytes of data memory only (R72); nothing is illegal in any other line, since every 32-bit value
may be written to every register (R47). -/
def Line.wf (p : Params) : Line → Bool
  | .mem addr bytes => admitted p addr bytes.length
  | _ => true

/-- Place the bytes of a `.mem` directive; any other line places none (R108). -/
def Line.place : Line → State → State
  | .mem addr bytes, s => storeBytes addr bytes s
  | _, s => s

/-- Load a program: the `.mem` bytes placed at the start, in the order of the lines, so that of two directives that name the same byte
the later one wins (R108 does not say; DESIGN CHOICE, log 19), and the accesses of its lines after those still to come. -/
def loadScript (lines : List Line) (s : State) : State :=
  let t := lines.foldl (fun t l => l.place t) s
  { t with env := { t.env with host := t.env.host ++ lines.flatMap (Line.expand t.params) } }

end Sys2Proof.Machine
end

