-- ==== Sys2Proof/Safety.lean ====
section
/-! DEFINITION. What counts as a safe run (spec/60_exceptions.md R203, spec/70_reset_and_hazards.md R261), the invariants of the machine, and the words in which the
statements speak of a completed command. -/

namespace Sys2Proof.Machine

/-! ### Whose turn it is (R82, R252, log 2) -/

/-- The next event is the host's: the schedule names it, or names nobody and no command is in flight. -/
def HostsTurn (s : State) : Prop :=
  s.env.sched.head? = some .host ∨ (s.env.sched = [] ∧ s.status.busy = false)

/-- The next event is the engine's: the schedule names it, or names nobody and a command is in flight. -/
def EnginesTurn (s : State) : Prop :=
  s.env.sched.head? = some .engine ∨ (s.env.sched = [] ∧ s.status.busy = true)

/-- The next event is the platform's reset. -/
def ResetsTurn (s : State) : Prop := s.env.sched.head? = some .reset

/-! ### Runs -/

/-- A run has ended: the host program has executed its last line and no command is in flight (R261). -/
def Ended (s : State) : Prop := s.env.host = [] ∧ s.status.busy = false

/-- `t` is the state at the point where the run from `s` ends: the first point at which it has ended, whatever the schedule still
holds after it (R261, "at that point"). -/
def EndsIn (s t : State) : Prop :=
  ∃ k, Host.Core.run core k s = .next t ∧ Ended t ∧ ∀ j < k, ∀ u, Host.Core.run core j s = .next u → ¬Ended u

/-- `t` is the end state of a run from `s` that a claim may use: the run stopped for no fault, and recorded no completion
with a code at or above 0x20 (R203, R261). -/
def SafeEnd (s t : State) : Prop := EndsIn s t ∧ t.faultSeen = false

/-! ### Invariants -/

/-- Data memory is in canonical form and lists no address at or above `MEM_SIZE` (R72). -/
abbrev MemOk (s : State) : Prop := Memory.wf s.mem ∧ ∀ c ∈ s.mem, c.1 < s.params.memSize

/-- `BUSY = 1` implies `DONE = 0` (R40), and issue has cleared `ERR` (R44). -/
abbrev HandshakeOk (s : State) : Prop := s.status.busy = true → s.status.done = false ∧ s.status.err = 0

/-- R50: with an object held, the key length is 16, 24 or 32 and the key bytes after it are 0; with none held, everything in
the slot is 0. -/
abbrev SlotOk (c : Slot) : Prop :=
  (c.configured = true → c.klen ∈ Config.keyLengths ∧ c.key.val.drop c.klen = List.replicate (32 - c.klen) 0) ∧
  (c.configured = false → c.klen = 0 ∧ c.key = zeroBytes 32 ∧ c.iv = zeroBytes 16)

/-- The codes `STATUS.ERR` can hold (R200), without the reserved 0x03 (R204). -/
def reportableCodes : List Byte := [0x00, 0x01, 0x02, 0x04, 0x05, 0x10, 0x11, 0x12, 0x13, 0x20, 0x21, 0x22]

/-- `ERR` holds one of the codes of R200, and a code other than `OK` goes with `OUT_LEN` = 0 (R41). -/
abbrev ErrOk (s : State) : Prop := s.status.err ∈ reportableCodes ∧ (s.status.err ≠ 0 → s.outLen = 0)

/-- A fault code that can be read in `ERR` has been recorded (R203, log 1). -/
abbrev FaultsRecorded (s : State) : Prop := 0x20 ≤ s.status.err.toNat → s.faultSeen = true

/-- All of them, with the platform's parameters in the range of R10. -/
abbrev Inv (s : State) : Prop :=
  s.params.wf = true ∧ MemOk s ∧ HandshakeOk s ∧ SlotOk s.slot ∧ ErrOk s ∧ FaultsRecorded s

/-! ### What a statement says of a completed command -/

/-- The command has completed in `t` with this code and this output length (R210, R211). -/
def CompletesWith (t : State) (code : Byte) (m : Nat) : Prop :=
  t.status.err = code ∧ t.outLen.toNat = m ∧ t.status.busy = false ∧ t.status.done = true

/-- Everything of the block but `STATUS`, `OUT_LEN` and the slot is unchanged, `STATUS.OVR` is too, and so is what surrounds the
block. -/
def KeepsRegisters (s t : State) : Prop :=
  t.params = s.params ∧ t.ctrl = s.ctrl ∧ t.regs = s.regs ∧ t.latch = s.latch ∧ t.env = s.env ∧
  t.status.ovr = s.status.ovr

/-- Every byte of data memory reads as before. -/
def KeepsMemory (s t : State) : Prop := ∀ a, t.mem.byte a = s.mem.byte a

/-- Every byte of data memory outside `[base, base + len)` reads as before. -/
def KeepsMemoryOutside (s t : State) (base len : Nat) : Prop :=
  ∀ a, ¬(base ≤ a ∧ a < base + len) → t.mem.byte a = s.mem.byte a

/-- The bytes `v` stand in data memory from `base` on. -/
def HoldsBytes (t : State) (base : Nat) (v : List Byte) : Prop :=
  ∀ (i : Nat) (h : i < v.length), t.mem.byte (base + i) = v[i]

/-- The range lies inside data memory, or is empty (R73). -/
def Fits (p : Params) (a n : Nat) : Prop := n = 0 ∨ a + n ≤ p.memSize

/-- The two ranges share no byte (R89). -/
def Apart (a m b n : Nat) : Prop := ¬(m > 0 ∧ n > 0 ∧ a < b + n ∧ b < a + m)

/-- The address lies in `[base, base + len)`. -/
def InRange (a base len : Nat) : Prop := base ≤ a ∧ a < base + len

/-- The length of the range a command writes from `L.dst` on (R90). -/
def outRangeLen (i : Instr) (l : Latch) : Nat :=
  match i with
  | .nop => 0
  | .config => 0
  | .encrypt => l.slen.toNat + (16 - l.slen.toNat % 16)
  | .decrypt => l.slen.toNat
  | .pad => l.slen.toNat + (16 - l.slen.toNat % 16)
  | .unpad => 0
  | .cbcenc => l.slen.toNat
  | .cbcdec => l.slen.toNat
  | .clear => 0

/-- The bytes of the `reads` column of R90. -/
def ReadsOf (i : Instr) (l : Latch) (a : Nat) : Prop :=
  match i with
  | .nop => False
  | .config => InRange a l.kaddr.toNat l.klen.toNat ∨ InRange a l.ivaddr.toNat 16
  | .encrypt => InRange a l.src.toNat l.slen.toNat
  | .decrypt => InRange a l.src.toNat l.slen.toNat
  | .pad => InRange a l.src.toNat l.slen.toNat
  | .unpad => InRange a l.src.toNat l.slen.toNat
  | .cbcenc => InRange a l.src.toNat l.slen.toNat
  | .cbcdec => InRange a l.src.toNat l.slen.toNat
  | .clear => False

/-- The bytes of the `writes` column of R90. -/
def WritesOf (i : Instr) (l : Latch) (a : Nat) : Prop := InRange a l.dst.toNat (outRangeLen i l)

/-- The registers of the window and their byte offsets, row by row of the table of R31. -/
def registerMap : List (Nat × Reg) :=
  [(0x00, .id), (0x04, .ctrl), (0x08, .status), (0x0C, .cmd), (0x10, .srcAddr), (0x14, .srcLen)] ++
  [(0x18, .dstAddr), (0x1C, .outLen), (0x20, .keyAddr), (0x24, .keyLen), (0x28, .ivAddr), (0x2C, .ivLen)]

/-- A command has ended with the code its unpad raised, one of the three that R152 and R153 name, by its number (R200). -/
def EndsWithUnpadError (t : State) (e : ErrCode) : Prop :=
  (e = .invalidPadding ∧ CompletesWith t 0x05 0) ∨ (e = .faultUnpadBounds ∧ CompletesWith t 0x20 0) ∨
  (e = .faultEmptyInput ∧ CompletesWith t 0x21 0)

/-- Block `j` of a byte sequence (R74, R170). -/
def blockAt (b : List Byte) (j : Nat) : Block := fit 16 (b.drop (16 * j))

/-- The error codes a command can complete with, as the rows of R205 list them. -/
def codesOf : Instr → List Byte
  | .nop => []
  | .config => [0x01, 0x02, 0x12]
  | .encrypt => [0x10, 0x12, 0x13]
  | .decrypt => [0x04, 0x05, 0x10, 0x12, 0x13, 0x20, 0x21, 0x22]
  | .pad => [0x12, 0x13]
  | .unpad => [0x05, 0x12, 0x20, 0x21]
  | .cbcenc => [0x04, 0x10, 0x12, 0x13]
  | .cbcdec => [0x04, 0x10, 0x12, 0x13]
  | .clear => []

end Sys2Proof.Machine
end

