-- ==== Sys2Proof/Certificates/Slice0/Obligations.lean ====
section
/-! DEFINITION. The statements for the provers. Each docstring names the rule of the spec it formalises; where a clause rests on a
choice of the model, it names the log entry. -/

open Sys2Proof Sys2Proof.Machine

/-! ### Encoding -/

/-- R102: the nine words of the opcode map, written out, decode to their commands. -/
def Obligations.OpcodeWordsDecode : Prop :=
  decode 0b00000000000000000000000000000000#32 = .ok .nop ∧
  decode 0b00000000000000000000000000000001#32 = .ok .config ∧
  decode 0b00000000000000000000000000000010#32 = .ok .encrypt ∧
  decode 0b00000000000000000000000000000011#32 = .ok .decrypt ∧
  decode 0b00000000000000000000000000000100#32 = .ok .pad ∧
  decode 0b00000000000000000000000000000101#32 = .ok .unpad ∧
  decode 0b00000000000000000000000000000110#32 = .ok .cbcenc ∧
  decode 0b00000000000000000000000000000111#32 = .ok .cbcdec ∧
  decode 0b00000000000000000000000000001000#32 = .ok .clear

/-- R102: each command's word, and "the match is the whole word": a word decodes to a command exactly when it is that command's
word, so decoding undoes encoding. -/
def Obligations.WordDecodesExactlyToItsCommand : Prop :=
  (∀ (w : Word) (i : Instr), decode w = .ok i ↔ w = encode i) ∧
  encode .nop = 0x00000000 ∧ encode .config = 0x00000001 ∧ encode .encrypt = 0x00000002 ∧
  encode .decrypt = 0x00000003 ∧ encode .pad = 0x00000004 ∧ encode .unpad = 0x00000005 ∧
  encode .cbcenc = 0x00000006 ∧ encode .cbcdec = 0x00000007 ∧ encode .clear = 0x00000008

/-- R106 and R107: a word with a non-zero reserved field or an opcode above 0x08 completes with `IllegalCommand` and has no other
effect; every other word selects the command of its opcode. -/
def Obligations.IllegalWordRaisesIllegalCommand : Prop :=
  ∀ s : State,
    ((s.latch.word.toNat / 256 ≠ 0 ∨ s.latch.word.toNat % 256 > 8) →
      ∃ t, perform s = .next t ∧ CompletesWith t 0x11 0 ∧ KeepsRegisters s t ∧ t.slot = s.slot ∧ KeepsMemory s t) ∧
    (s.latch.word.toNat / 256 = 0 ∧ s.latch.word.toNat % 256 ≤ 8 →
      ∃ i : Instr, i.opc = s.latch.word.toNat ∧ perform s = exec i s)

/-! ### The step -/

/-- R130: when the engine moves and a command is in flight whose latched word decodes to `i`, the step is `exec i`, with the turn
taken out of the schedule (the schedule is the model's, log 2). -/
def Obligations.StepPerformsDecodedCommand : Prop :=
  ∀ (s : State) (i : Instr), EnginesTurn s → s.status.busy = true → decode s.latch.word = .ok i →
    step s = exec i { s with env := { s.env with sched := s.env.sched.tail } }

/-- The model's `withFetchWord` (log 9): the placed word runs at the very next step, from the state a host's write to `CMD` leaves. -/
def Obligations.PlacedWordRunsNext : Prop :=
  ∀ (s : State) (w : Nat) (i : Instr), decodeTableWord 32 w = some i →
    step (s.withFetchWord 32 w) =
      exec i (writeReg .cmd (BitVec.ofNat 32 w) { s with status := { s.status with busy := false } })

/-- R130: every body ends in a completion, whatever the state; registers, the latch and `OVR` are left alone. -/
def Obligations.EveryCommandEndsInOneCompletion : Prop :=
  ∀ (i : Instr) (s : State), ∃ t, exec i s = .next t ∧ t.status.busy = false ∧ t.status.done = true ∧ KeepsRegisters s t

/-! ### NOP, CONFIG, CLEAR -/

/-- R131 and R136: NOP and CLEAR complete with `OK` and length 0 in every state, NOP with the slot as it was and CLEAR with it zeroed; with
no object held afterwards and `OVR` clear, `STATUS` reads 0x00000002. -/
def Obligations.NopAndClearComplete : Prop :=
  ∀ s : State,
    (∃ t, exec .nop s = .next t ∧ CompletesWith t 0x00 0 ∧ KeepsRegisters s t ∧ t.slot = s.slot ∧ KeepsMemory s t ∧
      (s.slot.configured = false → s.status.ovr = false → readReg .status t = 0x00000002)) ∧
    (∃ t, exec .clear s = .next t ∧ CompletesWith t 0x00 0 ∧ KeepsRegisters s t ∧ KeepsMemory s t ∧
      t.slot.configured = false ∧ t.slot.klen = 0 ∧ t.slot.key.val = List.replicate 32 0 ∧
      t.slot.iv.val = List.replicate 16 0 ∧
      (s.status.ovr = false → readReg .status t = 0x00000002))

/-- R132: with valid lengths and both ranges in memory, CONFIG stores the key, its length and the IV, the key filled up with zero
bytes; `KSIZE` reads 1, 2 or 3. -/
def Obligations.ConfigConstructs : Prop :=
  ∀ s : State,
    (s.latch.klen.toNat = 16 ∨ s.latch.klen.toNat = 24 ∨ s.latch.klen.toNat = 32) → s.latch.ivlen.toNat = 16 →
    Fits s.params s.latch.kaddr.toNat s.latch.klen.toNat → Fits s.params s.latch.ivaddr.toNat 16 →
    ∃ t, exec .config s = .next t ∧ CompletesWith t 0x00 0 ∧ KeepsRegisters s t ∧ KeepsMemory s t ∧
      t.slot.configured = true ∧ t.slot.klen = s.latch.klen.toNat ∧
      (∀ i < 32, t.slot.key.val[i]? =
        some (if i < s.latch.klen.toNat then s.mem.byte (s.latch.kaddr.toNat + i) else 0)) ∧
      (∀ i < 16, t.slot.iv.val[i]? = some (s.mem.byte (s.latch.ivaddr.toNat + i))) ∧
      (readReg .status t).extractLsb' 16 2 = BitVec.ofNat 2 (s.latch.klen.toNat / 8 - 1)

/-- R133 to R135: a CONFIG with a bad length or a range outside memory reports the first failing check and leaves the slot and
everything else as it was. -/
def Obligations.ConfigFailureKeepsSlot : Prop :=
  ∀ s : State,
    ¬((s.latch.klen.toNat = 16 ∨ s.latch.klen.toNat = 24 ∨ s.latch.klen.toNat = 32) ∧ s.latch.ivlen.toNat = 16 ∧
      Fits s.params s.latch.kaddr.toNat s.latch.klen.toNat ∧ Fits s.params s.latch.ivaddr.toNat 16) →
    ∃ t, exec .config s = .next t ∧
      CompletesWith t
        (if ¬(s.latch.klen.toNat = 16 ∨ s.latch.klen.toNat = 24 ∨ s.latch.klen.toNat = 32) then 0x01
         else if s.latch.ivlen.toNat ≠ 16 then 0x02 else 0x12) 0 ∧
      KeepsRegisters s t ∧ t.slot = s.slot ∧ KeepsMemory s t

/-! ### The padding codec -/

/-- R154 with R150 and R151: PAD copies its input and appends `n = 16 - l mod 16` bytes of value `n`. -/
def Obligations.PadAppendsPadCount : Prop :=
  ∀ (s : State) (l n : Nat), l = s.latch.slen.toNat → n = 16 - l % 16 → s.params.wf = true → Memory.wf s.mem →
    Fits s.params s.latch.src.toNat l → Fits s.params s.latch.dst.toNat (l + n) →
    Apart s.latch.src.toNat l s.latch.dst.toNat (l + n) →
    ∃ t, exec .pad s = .next t ∧ CompletesWith t 0x00 (l + n) ∧ KeepsRegisters s t ∧ t.slot = s.slot ∧
      (∀ i < l, t.mem.byte (s.latch.dst.toNat + i) = s.mem.byte (s.latch.src.toNat + i)) ∧
      (∀ i < n, t.mem.byte (s.latch.dst.toNat + l + i) = BitVec.ofNat 8 n) ∧
      KeepsMemoryOutside s t s.latch.dst.toNat (l + n)

/-- R152: the fidelity unpad, for every last byte `n`. -/
def Obligations.UnpadFidelityRule : Prop :=
  unpadBytes [] false = .error .faultEmptyInput ∧
  ∀ (b : List Byte) (n : Byte), unpadBytes (b ++ [n]) false =
    if n.toNat > b.length + 1 then .error .faultUnpadBounds else .ok (b.length + 1 - n.toNat)

/-- R153: the hardened unpad keeps `m` bytes exactly when the last byte `n` is in 1 to 16, fits, and the last `n` bytes all equal
`n`; it raises `InvalidPadding` otherwise. -/
def Obligations.UnpadHardenedRule : Prop :=
  ∀ b : List Byte,
    (∀ m, unpadBytes b true = .ok m ↔
      ∃ n : Byte, 1 ≤ n.toNat ∧ n.toNat ≤ 16 ∧ n.toNat ≤ b.length ∧ m = b.length - n.toNat ∧
        ∀ j < n.toNat, b[b.length - 1 - j]? = some n) ∧
    ((∀ m, unpadBytes b true ≠ .ok m) → unpadBytes b true = .error .invalidPadding)

/-- R155: UNPAD of an admitted input completes with the length its variant keeps, or with the code it raises, and writes no
memory; an input outside memory raises `BusFault`. -/
def Obligations.UnpadReportsLength : Prop :=
  ∀ (s : State) (b : List Byte), b = s.mem.readBytes s.latch.src.toNat s.latch.slen.toNat →
    ∃ t, exec .unpad s = .next t ∧ KeepsRegisters s t ∧ t.slot = s.slot ∧ KeepsMemory s t ∧
      (Fits s.params s.latch.src.toNat s.latch.slen.toNat →
        (∀ m, unpadBytes b s.latch.harden = .ok m → CompletesWith t 0x00 m) ∧
        (∀ e, unpadBytes b s.latch.harden = .error e → EndsWithUnpadError t e)) ∧
      (¬Fits s.params s.latch.src.toNat s.latch.slen.toNat → CompletesWith t 0x12 0)

/-- R157 and R158: both variants take exactly the padding off again; padding always grows a buffer to whole blocks; the hardened
variant answers exactly when the fidelity variant does and the last byte is in 1 to 16 and stands that many times at the end, and then they
answer the same. -/
def Obligations.PadThenUnpadIsIdentity : Prop :=
  (∀ (b : List Byte) (h : Bool), unpadBytes (padBytes b) h = .ok b.length) ∧
  (∀ b : List Byte, (padBytes b).length > b.length ∧ (padBytes b).length % 16 = 0) ∧
  (∀ (b : List Byte) (m : Nat), unpadBytes b true = .ok m ↔
    unpadBytes b false = .ok m ∧
      ∃ n : Byte, b.getLast? = some n ∧ 1 ≤ n.toNat ∧ n.toNat ≤ 16 ∧ ∀ j < n.toNat, b[b.length - 1 - j]? = some n)

/-! ### The chaining -/

/-- R170: block `j` of the output is `AES_Enc(K, Pj XOR CV)`, with `CV` the IV for the first block and the output block before it
for every other. -/
def Obligations.CbcEncChainsBlocks : Prop :=
  ∀ (key : List Byte) (iv : Block) (p : List Byte) (k : Nat), p.length = 16 * k →
    (cbcEnc key iv p).length = 16 * k ∧
    ∀ j < k, blockAt (cbcEnc key iv p) j =
      Config.aesEnc key (xorBytes (blockAt p j) (if j = 0 then iv else blockAt (cbcEnc key iv p) (j - 1)))

/-- R171: block `j` of the output is `AES_Dec(K, Cj)` XOR the input block before it, the IV for the first. -/
def Obligations.CbcDecChainsBlocks : Prop :=
  ∀ (key : List Byte) (iv : Block) (c : List Byte) (k : Nat), c.length = 16 * k →
    (cbcDec key iv c).length = 16 * k ∧
    ∀ j < k, blockAt (cbcDec key iv c) j =
      xorBytes (Config.aesDec key (blockAt c j)) (if j = 0 then iv else blockAt c (j - 1))

/-- R174: an output block of decryption depends on its own input block and the one before it only (the IV for the first), and an
output block of encryption on the blocks up to its own and the IV; so not on how many blocks follow. -/
def Obligations.ChainingIsLocal : Prop :=
  ∀ (key : List Byte) (iv iv' : Block) (x y : List Byte) (k k' j : Nat),
    x.length = 16 * k → y.length = 16 * k' → j < k → j < k' →
    (blockAt x j = blockAt y j → (j = 0 → iv = iv') → (j ≠ 0 → blockAt x (j - 1) = blockAt y (j - 1)) →
      blockAt (cbcDec key iv x) j = blockAt (cbcDec key iv' y) j) ∧
    (iv = iv' → (∀ i ≤ j, blockAt x i = blockAt y i) →
      blockAt (cbcEnc key iv x) j = blockAt (cbcEnc key iv' y) j)

/-- R173: the chaining undoes itself on whole blocks, for every key, IV and primitive that R18 allows. -/
def Obligations.ChainingRoundTrip : Prop :=
  ∀ (key : List Byte) (iv : Block) (p : List Byte), p.length % 16 = 0 → cbcDec key iv (cbcEnc key iv p) = p

/-! ### The CBC commands -/

/-- R180 and R181: ENCRYPT writes the chained padded input and reports its length, a multiple of 16 above the input's. -/
def Obligations.EncryptWritesCiphertext : Prop :=
  ∀ (s : State) (l n : Nat), l = s.latch.slen.toNat → n = 16 - l % 16 → s.params.wf = true → Memory.wf s.mem →
    s.slot.configured = true →
    Fits s.params s.latch.src.toNat l → Fits s.params s.latch.dst.toNat (l + n) →
    Apart s.latch.src.toNat l s.latch.dst.toNat (l + n) →
    ∃ t, exec .encrypt s = .next t ∧ CompletesWith t 0x00 (l + n) ∧ KeepsRegisters s t ∧ t.slot = s.slot ∧
      HoldsBytes t s.latch.dst.toNat
        (cbcEnc (s.slot.key.val.take s.slot.klen) s.slot.iv (padBytes (s.mem.readBytes s.latch.src.toNat l))) ∧
      KeepsMemoryOutside s t s.latch.dst.toNat (l + n) ∧ t.outLen.toNat > l ∧ t.outLen.toNat % 16 = 0

/-- R182 and R185: past its checks DECRYPT writes the whole chained plaintext, and then completes as the latched unpad variant
answers on it; an unpad error does not take the plaintext back. -/
def Obligations.DecryptWritesThenUnpads : Prop :=
  ∀ (s : State) (l : Nat) (p : List Byte), l = s.latch.slen.toNat → l % 16 = 0 → Memory.wf s.mem →
    s.slot.configured = true →
    Fits s.params s.latch.src.toNat l → Fits s.params s.latch.dst.toNat l →
    Apart s.latch.src.toNat l s.latch.dst.toNat l →
    p = cbcDec (s.slot.key.val.take s.slot.klen) s.slot.iv (s.mem.readBytes s.latch.src.toNat l) →
    ∃ t, exec .decrypt s = .next t ∧ KeepsRegisters s t ∧ t.slot = s.slot ∧ p.length = l ∧
      HoldsBytes t s.latch.dst.toNat p ∧ KeepsMemoryOutside s t s.latch.dst.toNat l ∧
      (∀ m, unpadBytes p s.latch.harden = .ok m → CompletesWith t 0x00 m ∧ m ≤ l) ∧
      (∀ e, unpadBytes p s.latch.harden = .error e → EndsWithUnpadError t e)

/-- R183: CBCENC writes the chained input, without padding. -/
def Obligations.CbcencWritesChainedInput : Prop :=
  ∀ (s : State) (l : Nat), l = s.latch.slen.toNat → l % 16 = 0 → Memory.wf s.mem → s.slot.configured = true →
    Fits s.params s.latch.src.toNat l → Fits s.params s.latch.dst.toNat l →
    Apart s.latch.src.toNat l s.latch.dst.toNat l →
    ∃ t, exec .cbcenc s = .next t ∧ CompletesWith t 0x00 l ∧ KeepsRegisters s t ∧ t.slot = s.slot ∧
      HoldsBytes t s.latch.dst.toNat
        (cbcEnc (s.slot.key.val.take s.slot.klen) s.slot.iv (s.mem.readBytes s.latch.src.toNat l)) ∧
      KeepsMemoryOutside s t s.latch.dst.toNat l

/-- R184: CBCDEC writes the chained plaintext and leaves the padding in place. -/
def Obligations.CbcdecWritesChainedPlaintext : Prop :=
  ∀ (s : State) (l : Nat), l = s.latch.slen.toNat → l % 16 = 0 → Memory.wf s.mem → s.slot.configured = true →
    Fits s.params s.latch.src.toNat l → Fits s.params s.latch.dst.toNat l →
    Apart s.latch.src.toNat l s.latch.dst.toNat l →
    ∃ t, exec .cbcdec s = .next t ∧ CompletesWith t 0x00 l ∧ KeepsRegisters s t ∧ t.slot = s.slot ∧
      HoldsBytes t s.latch.dst.toNat
        (cbcDec (s.slot.key.val.take s.slot.klen) s.slot.iv (s.mem.readBytes s.latch.src.toNat l)) ∧
      KeepsMemoryOutside s t s.latch.dst.toNat l

/-- R206 steps 2 and 3: with no object held the four CBC commands raise `NotConfigured` whatever the buffers; with one held, a partial block
raises `MalformedCiphertext`, or in DECRYPT with the length check off `FaultPartialBlock`, whatever the ranges (R182, R183, R184). -/
def Obligations.ObjectThenLengthChecks : Prop :=
  ∀ (i : Instr) (s : State), i = .encrypt ∨ i = .decrypt ∨ i = .cbcenc ∨ i = .cbcdec →
    (s.slot.configured = false →
      ∃ t, exec i s = .next t ∧ CompletesWith t 0x10 0 ∧ KeepsRegisters s t ∧ t.slot = s.slot ∧ KeepsMemory s t) ∧
    (s.slot.configured = true → i ≠ .encrypt → s.latch.slen.toNat % 16 ≠ 0 →
      ∃ t, exec i s = .next t ∧ CompletesWith t (if i = .decrypt ∧ s.latch.ctlen = false then 0x22 else 0x04) 0 ∧
        KeepsRegisters s t ∧ t.slot = s.slot ∧ KeepsMemory s t)

/-- R206 steps 4 and 5: past the earlier checks, a range outside memory raises `BusFault`, and overlapping ranges inside memory raise
`BufferOverlap`, before anything is written. -/
def Obligations.RangeThenOverlapChecks : Prop :=
  ∀ (i : Instr) (s : State), i = .encrypt ∨ i = .decrypt ∨ i = .pad ∨ i = .cbcenc ∨ i = .cbcdec →
    (i ≠ .pad → s.slot.configured = true) → (i ≠ .pad → i ≠ .encrypt → s.latch.slen.toNat % 16 = 0) →
    (¬Fits s.params s.latch.src.toNat s.latch.slen.toNat ∨ ¬Fits s.params s.latch.dst.toNat (outRangeLen i s.latch) →
      ∃ t, exec i s = .next t ∧ CompletesWith t 0x12 0 ∧ KeepsRegisters s t ∧ t.slot = s.slot ∧ KeepsMemory s t) ∧
    (Fits s.params s.latch.src.toNat s.latch.slen.toNat → Fits s.params s.latch.dst.toNat (outRangeLen i s.latch) →
      ¬Apart s.latch.src.toNat s.latch.slen.toNat s.latch.dst.toNat (outRangeLen i s.latch) →
      ∃ t, exec i s = .next t ∧ CompletesWith t 0x13 0 ∧ KeepsRegisters s t ∧ t.slot = s.slot ∧ KeepsMemory s t)

/-- R186: a successful ENCRYPT followed by a DECRYPT of its output with the same slot, in any state that still holds that output and
with any control bits, gives the plaintext and its length back. -/
def Obligations.EncryptThenDecryptGivesPlaintext : Prop :=
  ∀ s t u : State, s.params.wf = true → Memory.wf s.mem → Memory.wf u.mem →
    exec .encrypt s = .next t → t.status.err = 0x00 →
    u.slot = s.slot → u.latch.slen = t.outLen →
    (∀ i < t.outLen.toNat, u.mem.byte (u.latch.src.toNat + i) = t.mem.byte (s.latch.dst.toNat + i)) →
    Fits u.params u.latch.src.toNat u.latch.slen.toNat → Fits u.params u.latch.dst.toNat u.latch.slen.toNat →
    Apart u.latch.src.toNat u.latch.slen.toNat u.latch.dst.toNat u.latch.slen.toNat →
    ∃ v, exec .decrypt u = .next v ∧ CompletesWith v 0x00 s.latch.slen.toNat ∧
      ∀ i < s.latch.slen.toNat, v.mem.byte (u.latch.dst.toNat + i) = s.mem.byte (s.latch.src.toNat + i)

/-- R187, first half: where all three succeed, ENCRYPT writes what CBCENC writes from the output of PAD. -/
def Obligations.EncryptIsPadThenCbcenc : Prop :=
  ∀ s t u v e w : State, s.params.wf = true →
    Memory.wf s.mem → Memory.wf u.mem → Memory.wf e.mem →
    exec .pad s = .next t → t.status.err = 0x00 →
    exec .cbcenc u = .next v → v.status.err = 0x00 →
    exec .encrypt e = .next w → w.status.err = 0x00 →
    u.latch.slen = t.outLen →
    (∀ i < t.outLen.toNat, u.mem.byte (u.latch.src.toNat + i) = t.mem.byte (s.latch.dst.toNat + i)) →
    e.slot = u.slot → e.latch.slen = s.latch.slen →
    (∀ i < s.latch.slen.toNat, e.mem.byte (e.latch.src.toNat + i) = s.mem.byte (s.latch.src.toNat + i)) →
    w.outLen = v.outLen ∧
    ∀ i < w.outLen.toNat, w.mem.byte (e.latch.dst.toNat + i) = v.mem.byte (u.latch.dst.toNat + i)

/-- R187, second half: where all three succeed, DECRYPT writes what CBCDEC writes, and reports what UNPAD reports of it. -/
def Obligations.DecryptIsCbcdecThenUnpad : Prop :=
  ∀ s t u v e w : State, Memory.wf s.mem → Memory.wf u.mem → Memory.wf e.mem →
    exec .cbcdec s = .next t → t.status.err = 0x00 →
    exec .unpad u = .next v → v.status.err = 0x00 →
    exec .decrypt e = .next w → w.status.err = 0x00 →
    u.latch.slen = t.outLen → u.latch.harden = e.latch.harden →
    (∀ i < t.outLen.toNat, u.mem.byte (u.latch.src.toNat + i) = t.mem.byte (s.latch.dst.toNat + i)) →
    e.slot = s.slot → e.latch.slen = s.latch.slen →
    (∀ i < s.latch.slen.toNat, e.mem.byte (e.latch.src.toNat + i) = s.mem.byte (s.latch.src.toNat + i)) →
    w.outLen = v.outLen ∧
    ∀ i < s.latch.slen.toNat, w.mem.byte (e.latch.dst.toNat + i) = t.mem.byte (s.latch.dst.toNat + i)

/-! ### Rules about all commands -/

/-- R20: a command's code, length, slot and written bytes are a function of the latch, the slot and the bytes it reads (with
`MEM_SIZE` fixed): two states that agree on these agree on those. -/
def Obligations.CommandsAreDetermined : Prop :=
  ∀ (i : Instr) (s s' : State), Memory.wf s.mem → Memory.wf s'.mem →
    s'.params = s.params → s'.latch = s.latch → s'.slot = s.slot →
    (∀ a, ReadsOf i s.latch a → s'.mem.byte a = s.mem.byte a) →
    ∃ t t', exec i s = .next t ∧ exec i s' = .next t' ∧ t'.status.err = t.status.err ∧ t'.outLen = t.outLen ∧
      t'.slot = t.slot ∧
      ∀ a, t.mem.byte a ≠ s.mem.byte a ∨ t'.mem.byte a ≠ s'.mem.byte a → t'.mem.byte a = t.mem.byte a

/-- R90: no command changes a byte outside the range its row of the table writes. -/
def Obligations.CommandsWriteOnlyTheirRange : Prop :=
  ∀ (i : Instr) (s t : State), exec i s = .next t → ∀ a, t.mem.byte a ≠ s.mem.byte a → WritesOf i s.latch a

/-- R210: a command or an illegal word that completes with an error has written `ERR`, `OUT_LEN`, `BUSY` and `DONE` and nothing else, but
for the destination of a DECRYPT whose unpad raised. -/
def Obligations.FailedCommandsHaveNoOtherEffect : Prop :=
  ∀ s t : State, perform s = .next t → t.status.err ≠ 0x00 →
    CompletesWith t t.status.err 0 ∧ KeepsRegisters s t ∧ t.slot = s.slot ∧
    (KeepsMemory s t ∨
      (decode s.latch.word = .ok .decrypt ∧ (t.status.err = 0x05 ∨ t.status.err = 0x20 ∨ t.status.err = 0x21) ∧
        KeepsMemoryOutside s t s.latch.dst.toNat s.latch.slen.toNat))

/-- R205: a command completes with `OK` or with a code of its row, never with another (so never with the reserved 0x03, R204). -/
def Obligations.CommandsRaiseOnlyTheirCodes : Prop :=
  ∀ (i : Instr) (s t : State), exec i s = .next t → t.status.err = 0x00 ∨ t.status.err ∈ codesOf i

/-- R21 and R51: the slot changes only in a step that performs CONFIG (word 1) or CLEAR (word 8), or in a reset. -/
def Obligations.OnlyConfigClearResetChangeSlot : Prop :=
  ∀ s t : State, step s = .next t → t.slot ≠ s.slot →
    ResetsTurn s ∨
    (EnginesTurn s ∧ s.status.busy = true ∧ (s.latch.word = 0x00000001 ∨ s.latch.word = 0x00000008))

/-- R39, R45 and R226: with no command in flight, only a host's 32-bit write to `CMD` starts one, and the word written is the one
latched. -/
def Obligations.OnlyCmdWriteStartsCommand : Prop :=
  ∀ s t : State, step s = .next t → s.status.busy = false → t.status.busy = true →
    HostsTurn s ∧ ∃ v, s.env.host.head? = some (.busWrite (s.params.regBase + 0x0C) 32 v) ∧ t.latch.word = v

/-- R256: with no command in flight, `ERR` and `OUT_LEN` keep their values but for an issue or a reset, and a byte of data memory but
for a host's write of that byte. -/
def Obligations.ResultsAreStable : Prop :=
  ∀ s t : State, step s = .next t → s.status.busy = false →
    (t.status.err ≠ s.status.err ∨ t.outLen ≠ s.outLen →
      ResetsTurn s ∨
      (HostsTurn s ∧ ∃ v, s.env.host.head? = some (.busWrite (s.params.regBase + 0x0C) 32 v))) ∧
    ∀ a, t.mem.byte a ≠ s.mem.byte a → HostsTurn s ∧ ∃ b, s.env.host.head? = some (.memWrite a b)

/-! ### Invariants -/

/-- Every step keeps data memory in canonical form and inside `MEM_SIZE` (R72, R73; the form is the model's). -/
def Obligations.MemoryStaysCanonical : Prop := ∀ s t : State, MemOk s → step s = .next t → MemOk t

/-- R50: every step keeps the slot's rule. -/
def Obligations.SlotStaysConsistent : Prop := ∀ s t : State, SlotOk s.slot → step s = .next t → SlotOk t.slot

/-- R40, R44, R200, R204, R41 and R203: every step keeps `BUSY` and `DONE` apart and `ERR` clear while busy, `ERR` among the codes that are ever
written, an error's `OUT_LEN` at 0, and a fault code recorded (log 1). -/
def Obligations.StatusStaysConsistent : Prop :=
  ∀ s t : State, HandshakeOk s ∧ ErrOk s ∧ FaultsRecorded s → step s = .next t →
    HandshakeOk t ∧ ErrOk t ∧ FaultsRecorded t

/-- R10: no step changes the platform's parameters. -/
def Obligations.ParametersNeverChange : Prop := ∀ s t : State, step s = .next t → t.params = s.params

/-- The reset state meets every invariant, and every register reads its reset value (R31, R55). The parameters and the empty data
memory in it are the model's choice (log 3, log 5). -/
def Obligations.ResetStateMeetsInvariants : Prop :=
  Inv State.reset ∧ (∀ r : Reg, readReg r State.reset = if r = .id then 0x41455301 else 0) ∧ irq State.reset = false

/-! ### Reset -/

/-- R55: the reset sets every piece of the block's state, whatever went before: every register reads its reset value, no object is held,
and the interrupt output is 0. -/
def Obligations.ResetRestoresBlock : Prop :=
  ∀ s t : State, t = platformReset s →
    (∀ r : Reg, readReg r t = if r = .id then 0x41455301 else 0) ∧
    t.ctrl.ie = false ∧ t.ctrl.harden = false ∧ t.ctrl.ctlenCheck = false ∧
    t.status.busy = false ∧ t.status.done = false ∧ t.status.ovr = false ∧ t.status.err = 0x00 ∧
    t.slot.configured = false ∧ t.slot.klen = 0 ∧ t.slot.key.val = List.replicate 32 0 ∧
    t.slot.iv.val = List.replicate 16 0 ∧ irq t = false

/-- R241: where the schedule names the reset (log 2), the step is the reset. It changes no byte of data memory outside the write range of
the command in flight, and none at all when no command is in flight or its word is illegal; and each byte of the write range of a command
past its checks (log 6) becomes a free byte of its own, whatever the number the draws have come to (log 8). -/
def Obligations.ResetTouchesOnlyWriteRange : Prop :=
  ∀ s : State, ResetsTurn s → ∃ t,
    step s = .next t ∧ t = platformReset { s with env := { s.env with sched := s.env.sched.tail } } ∧
    (∀ a, t.mem.byte a ≠ s.mem.byte a →
      s.status.busy = true ∧ ∃ i, decode s.latch.word = .ok i ∧ WritesOf i s.latch a) ∧
    ∀ i, Memory.wf s.mem → s.status.busy = true → decode s.latch.word = .ok i → dataPhaseCheck i s = none →
      ∀ k < outRangeLen i s.latch, t.mem.byte (s.latch.dst.toNat + k) = Config.freeByte (s.env.draws + k)

/-! ### The register window -/

/-- R31 and R32: in the host's turn, an aligned 32-bit write at `REG_BASE` plus the offset of a row of the table of R31 is a write of that
row's register. -/
def Obligations.BusWriteReachesRegister : Prop :=
  ∀ (s : State) (off : Nat) (r : Reg) (v : Word) (rest : List HostOp), (off, r) ∈ registerMap → HostsTurn s →
    s.env.host = .busWrite (s.params.regBase + off) 32 v :: rest →
    step s = .next (writeReg r v
      { s with env := { s.env with host := rest, sched := s.env.sched.tail } })

/-- R79: in the host's turn, an aligned 32-bit read at `REG_BASE` plus the offset of a row of the table of R31 records the value of that
row's register and changes no other state. -/
def Obligations.BusReadHasNoSideEffect : Prop :=
  ∀ (s : State) (off : Nat) (r : Reg) (rest : List HostOp), (off, r) ∈ registerMap → HostsTurn s →
    s.env.host = .busRead (s.params.regBase + off) 32 :: rest →
    step s = .next { s with
      env := { s.env with
        host := rest, sched := s.env.sched.tail
        trace := s.env.trace ++ [.reg (s.params.regBase + off) (readReg r s)] } }

/-- R32: an access of the window that is not 32 bits wide or not at a multiple of 4 is `HostBusError`; an aligned access of a
reserved offset reads 0, in a `poll` too, and its write is ignored. -/
def Obligations.BusAccessRules : Prop :=
  ∀ (s : State) (off : Nat) (rest : List HostOp), HostsTurn s → off < 64 →
    (∀ (width : Nat) (v : Word), s.env.host = .busWrite (s.params.regBase + off) width v :: rest →
      (width ≠ 32 ∨ off % 4 ≠ 0 → step s = .fault .hostBusError) ∧
      (width = 32 → off % 4 = 0 → 0x30 ≤ off →
        step s = .next { s with env := { s.env with host := rest, sched := s.env.sched.tail } })) ∧
    (∀ width : Nat, s.env.host = .busRead (s.params.regBase + off) width :: rest →
      (width ≠ 32 ∨ off % 4 ≠ 0 → step s = .fault .hostBusError) ∧
      (width = 32 → off % 4 = 0 → 0x30 ≤ off →
        step s = .next { s with
          env := { s.env with
            host := rest, sched := s.env.sched.tail
            trace := s.env.trace ++ [.reg (s.params.regBase + off) 0] } })) ∧
    (∀ mask value : Word, s.env.host = .poll (s.params.regBase + off) mask value :: rest →
      (off % 4 ≠ 0 → step s = .fault .hostBusError) ∧
      (off % 4 = 0 → 0x30 ≤ off →
        step s = .next { s with
          env := { s.env with
            host := if value = 0 then rest else s.env.host
            sched := s.env.sched.tail
            trace := s.env.trace ++ [.reg (s.params.regBase + off) 0] } }))

/-- R31, R33, R34, R38, R41, R45 and R47: what every register reads after a write of every register. A parameter register reads
the value written; `CTRL` keeps bits 2 to 0; a write of `STATUS` clears `DONE` and `OVR` where bits 1 and 3 are set; `ID`, `CMD` and
`OUT_LEN` ignore the value; a write of `CMD` sets `OVR` with a command in flight, and otherwise clears `DONE` and `ERR` and sets `BUSY`;
and no other register is touched. -/
def Obligations.RegisterReadAfterWrite : Prop :=
  ∀ (s : State) (r r' : Reg) (v : Word),
    readReg r' (writeReg r v s) =
      if r' = r then
        match r with
        | .id => 0x41455301
        | .ctrl => v &&& 0x00000007
        | .status => readReg .status s &&& ~~~(v &&& 0x0000000A)
        | .cmd => 0
        | .outLen => s.outLen
        | _ => v
      else if r = .cmd ∧ r' = .status then
        (if s.status.busy then readReg .status s ||| 0x00000008 else readReg .status s &&& 0xFFFF00FD ||| 0x00000001)
      else readReg r' s

/-- R34, R45 and R79: a register write leaves data memory, the slot and `OUT_LEN` alone; a write of `CTRL` stores its three bits, and no
other write changes them; only a write of `CMD` changes the latch. -/
def Obligations.RegisterWriteFrame : Prop :=
  ∀ (s : State) (r : Reg) (v : Word),
    (writeReg r v s).mem = s.mem ∧ (writeReg r v s).slot = s.slot ∧ (writeReg r v s).outLen = s.outLen ∧
    (writeReg r v s).params = s.params ∧ (writeReg r v s).env = s.env ∧ (writeReg r v s).faultSeen = s.faultSeen ∧
    (writeReg r v s).ctrl =
      (if r = .ctrl then { ie := v.getLsbD 0, harden := v.getLsbD 1, ctlenCheck := v.getLsbD 2 } else s.ctrl) ∧
    (r ≠ .cmd → (writeReg r v s).latch = s.latch)

/-- R38 and R44: the fields of `STATUS`, bit by bit, with the reserved bits 0. -/
def Obligations.StatusLayout : Prop :=
  ∀ s : State,
    (readReg .status s).getLsbD 0 = s.status.busy ∧ (readReg .status s).getLsbD 1 = s.status.done ∧
    (readReg .status s).getLsbD 2 = s.slot.configured ∧ (readReg .status s).getLsbD 3 = s.status.ovr ∧
    (readReg .status s).extractLsb' 4 4 = 0 ∧ (readReg .status s).extractLsb' 8 8 = s.status.err ∧
    (s.slot.configured = false → (readReg .status s).extractLsb' 16 2 = 0) ∧
    (s.slot.configured = true → s.slot.klen = 16 → (readReg .status s).extractLsb' 16 2 = 1) ∧
    (s.slot.configured = true → s.slot.klen = 24 → (readReg .status s).extractLsb' 16 2 = 2) ∧
    (s.slot.configured = true → s.slot.klen = 32 → (readReg .status s).extractLsb' 16 2 = 3) ∧
    (readReg .status s).extractLsb' 18 14 = 0

/-- R45 and R43: a write of `CMD` with no command in flight latches the word, the parameter registers and the two control bits, and
sets `BUSY`, clears `DONE` and `ERR`; with one in flight it sets `OVR`. Nothing else changes, and `CMD` reads as 0. -/
def Obligations.CmdWriteIssues : Prop :=
  ∀ (s : State) (v : Word), readReg .cmd s = 0 ∧
    (s.status.busy = true →
      writeReg .cmd v s = { s with status := { s.status with ovr := true } }) ∧
    (s.status.busy = false →
      writeReg .cmd v s =
        { s with
          latch :=
            { word := v
              src := s.regs.srcAddr, slen := s.regs.srcLen, dst := s.regs.dstAddr
              kaddr := s.regs.keyAddr, klen := s.regs.keyLen, ivaddr := s.regs.ivAddr, ivlen := s.regs.ivLen
              harden := s.ctrl.harden, ctlen := s.ctrl.ctlenCheck }
          status := { busy := true, done := false, ovr := s.status.ovr, err := 0x00 } })

/-- R46 and R254: no register write after the issue changes what the command in flight does. -/
def Obligations.LatchIsolatesCommand : Prop :=
  ∀ (s : State) (r : Reg) (v : Word), s.status.busy = true →
    ∃ t t', perform s = .next t ∧ perform (writeReg r v s) = .next t' ∧ t'.status.err = t.status.err ∧
      t'.outLen = t.outLen ∧ t'.slot = t.slot ∧ t'.mem = t.mem ∧ t'.faultSeen = t.faultSeen

/-! ### The host and data memory -/

/-- R84 and R253: while a command that reaches its data phase is in flight, a host write of a byte it reads or writes, and a host read
of a byte it writes, is `HostRace`. (For a command that raises before its data phase, see log 6.) -/
def Obligations.HostRaceFaults : Prop :=
  ∀ (s : State) (i : Instr) (a : Nat) (rest : List HostOp), HostsTurn s → s.status.busy = true →
    decode s.latch.word = .ok i → dataPhaseCheck i s = none → a < s.params.memSize →
    (∀ b, s.env.host = .memWrite a b :: rest → ReadsOf i s.latch a ∨ WritesOf i s.latch a →
      step s = .fault .hostRace) ∧
    (s.env.host = .memRead a :: rest → WritesOf i s.latch a → step s = .fault .hostRace)

/-- R72, R82 and R84: a host access of data memory that breaks no duty is done: a write of a byte that the command in flight neither
reads nor writes changes that byte alone, and a read of a byte that it does not write, be it one that it reads, records it. No other piece of the
state changes, `CTRL` among them, but for what surrounds the block: the access and the turn are taken off their lists. -/
def Obligations.HostDataAccess : Prop :=
  ∀ (s : State) (a : Nat) (rest : List HostOp), HostsTurn s → a < s.params.memSize → Memory.wf s.mem →
    ((s.status.busy = true → ∀ i, decode s.latch.word = .ok i → ¬ReadsOf i s.latch a ∧ ¬WritesOf i s.latch a) →
      ∀ b, s.env.host = .memWrite a b :: rest →
        ∃ m : Memory, m.byte a = b ∧ (∀ k, k ≠ a → m.byte k = s.mem.byte k) ∧
          step s = .next { s with mem := m, env := { s.env with host := rest, sched := s.env.sched.tail } }) ∧
    ((s.status.busy = true → ∀ i, decode s.latch.word = .ok i → ¬WritesOf i s.latch a) →
      s.env.host = .memRead a :: rest →
        step s = .next { s with
          env := { s.env with
            host := rest, sched := s.env.sched.tail
            trace := s.env.trace ++ [.mem a (s.mem.byte a)] } })

/-- R14: `MemRead` after `MemWrite` gives the bytes written, and every other byte reads as before. -/
def Obligations.MemoryReadsWhatWasWritten : Prop :=
  ∀ (m : Memory) (a : Nat) (v : List Byte), Memory.wf m →
    Memory.wf (m.writeBytes a v) ∧ (m.writeBytes a v).readBytes a v.length = v ∧
    ∀ k n, k + n ≤ a ∨ a + v.length ≤ k → (m.writeBytes a v).readBytes k n = m.readBytes k n

/-! ### The interrupt, and progress -/

/-- R215: the interrupt output is `CTRL.IE AND STATUS.DONE`: every completion raises it when `IE` = 1; an acknowledgement, `IE` <- 0, an
issue and a reset clear it; a lost command leaves it as it was. -/
def Obligations.InterruptIsLevel : Prop :=
  ∀ s : State,
    irq s = (s.ctrl.ie && s.status.done) ∧
    (∀ t, perform s = .next t → irq t = s.ctrl.ie) ∧
    (∀ v : Word, v.getLsbD 1 = true → irq (writeReg .status v s) = false) ∧
    (∀ v : Word, irq (writeReg .ctrl v s) = (v.getLsbD 0 && s.status.done)) ∧
    (∀ v : Word, irq (writeReg .cmd v s) = (s.status.busy && irq s)) ∧
    irq (platformReset s) = false

/-- R252: in a run that no fault or refusal stops, a command in flight comes, after at most as many steps as the schedule has turns left, to a
state in which it is still in flight and the next event is the engine's or a reset, and that step ends it. That a schedule is a finite list is
the model's form of the fairness assumption (log 2). -/
def Obligations.CommandInFlightEnds : Prop :=
  ∀ (s u : State) (n : Nat), s.status.busy = true → s.env.sched.length < n → Host.Core.run core n s = .next u →
    ∃ k v w, k ≤ s.env.sched.length ∧ Host.Core.run core k s = .next v ∧ v.status.busy = true ∧
      (EnginesTurn v ∨ ResetsTurn v) ∧ step v = .next w ∧ w.status.busy = false

/-- The model's record of a fault of the run (R203, R261, log 1): the step that performs a command sets it where the code is at or above
0x20, and no step clears it or sets it otherwise. -/
def Obligations.FaultCodesAreRecorded : Prop :=
  ∀ s t : State, step s = .next t →
    (EnginesTurn s → s.status.busy = true → t.faultSeen = (s.faultSeen || decide (0x20 ≤ t.status.err.toNat))) ∧
    (¬(EnginesTurn s ∧ s.status.busy = true) → t.faultSeen = s.faultSeen)

/-- R108: in the host's turn, one read of a `poll` records the register's value; with the wanted value the line is done, otherwise the
same line comes again; nothing else changes (that each read is a step of its own is the model's choice, log 10). -/
def Obligations.PollRepeatsUntilSatisfied : Prop :=
  ∀ (s : State) (off : Nat) (r : Reg) (mask value : Word) (rest : List HostOp), (off, r) ∈ registerMap → HostsTurn s →
    s.env.host = .poll (s.params.regBase + off) mask value :: rest →
    step s = .next { s with
      env := { s.env with
        host := if readReg r s &&& mask = value then rest else s.env.host
        sched := s.env.sched.tail
        trace := s.env.trace ++ [.reg (s.params.regBase + off) (readReg r s)] } }

/-- R215: in the host's turn, a look at the interrupt output records `CTRL.IE AND STATUS.DONE` and changes nothing else (the access is the
model's, log 10). -/
def Obligations.IrqSampleRecordsOutput : Prop :=
  ∀ (s : State) (rest : List HostOp), HostsTurn s → s.env.host = .irqSample :: rest →
    step s = .next { s with
      env := { s.env with
        host := rest, sched := s.env.sched.tail
        trace := s.env.trace ++ [.irq (s.ctrl.ie && s.status.done)] } }

/-- R261: a run ends at the first point at which the host's list is used up and no command is in flight: where both are so the run has
ended there, and otherwise it ends where the run from the next state ends. So it has one end state at most, and a turn that the schedule still
holds, a reset's for one, makes no second. -/
def Obligations.RunHasOneEndState : Prop :=
  ∀ s t : State,
    (s.env.host = [] ∧ s.status.busy = false → (EndsIn s t ↔ t = s)) ∧
    (¬(s.env.host = [] ∧ s.status.busy = false) → (EndsIn s t ↔ ∃ s', step s = .next s' ∧ EndsIn s' t)) ∧
    ∀ u, EndsIn s t → EndsIn s u → u = t
end

