-- ==== Sys2Proof/Laws/State.lean ====
section
/-! SUPPORT. One lemma per field per update of the state, each true by rfl: no later proof unfolds a record update. -/

namespace Sys2Proof.Machine

/-! ### storeBytes -/

@[simp] theorem storeBytes_params (a : Nat) (v : List Byte) (s : State) : (storeBytes a v s).params = s.params := rfl
@[simp] theorem storeBytes_ctrl (a : Nat) (v : List Byte) (s : State) : (storeBytes a v s).ctrl = s.ctrl := rfl
@[simp] theorem storeBytes_status (a : Nat) (v : List Byte) (s : State) : (storeBytes a v s).status = s.status := rfl
@[simp] theorem storeBytes_outLen (a : Nat) (v : List Byte) (s : State) : (storeBytes a v s).outLen = s.outLen := rfl
@[simp] theorem storeBytes_regs (a : Nat) (v : List Byte) (s : State) : (storeBytes a v s).regs = s.regs := rfl
@[simp] theorem storeBytes_slot (a : Nat) (v : List Byte) (s : State) : (storeBytes a v s).slot = s.slot := rfl
@[simp] theorem storeBytes_latch (a : Nat) (v : List Byte) (s : State) : (storeBytes a v s).latch = s.latch := rfl
@[simp] theorem storeBytes_mem (a : Nat) (v : List Byte) (s : State) :
    (storeBytes a v s).mem = s.mem.writeBytes a v := rfl
@[simp] theorem storeBytes_env (a : Nat) (v : List Byte) (s : State) : (storeBytes a v s).env = s.env := rfl
@[simp] theorem storeBytes_faultSeen (a : Nat) (v : List Byte) (s : State) : (storeBytes a v s).faultSeen = s.faultSeen := rfl

/-! ### setSlot -/

@[simp] theorem setSlot_params (c : Slot) (s : State) : (setSlot c s).params = s.params := rfl
@[simp] theorem setSlot_ctrl (c : Slot) (s : State) : (setSlot c s).ctrl = s.ctrl := rfl
@[simp] theorem setSlot_status (c : Slot) (s : State) : (setSlot c s).status = s.status := rfl
@[simp] theorem setSlot_outLen (c : Slot) (s : State) : (setSlot c s).outLen = s.outLen := rfl
@[simp] theorem setSlot_regs (c : Slot) (s : State) : (setSlot c s).regs = s.regs := rfl
@[simp] theorem setSlot_slot (c : Slot) (s : State) :
    (setSlot c s).slot = c := rfl
@[simp] theorem setSlot_latch (c : Slot) (s : State) : (setSlot c s).latch = s.latch := rfl
@[simp] theorem setSlot_mem (c : Slot) (s : State) : (setSlot c s).mem = s.mem := rfl
@[simp] theorem setSlot_env (c : Slot) (s : State) : (setSlot c s).env = s.env := rfl
@[simp] theorem setSlot_faultSeen (c : Slot) (s : State) : (setSlot c s).faultSeen = s.faultSeen := rfl

/-! ### complete -/

@[simp] theorem complete_params (c : Byte) (m : Nat) (s : State) : (complete c m s).params = s.params := rfl
@[simp] theorem complete_ctrl (c : Byte) (m : Nat) (s : State) : (complete c m s).ctrl = s.ctrl := rfl
@[simp] theorem complete_busy (c : Byte) (m : Nat) (s : State) : (complete c m s).status.busy = false := rfl
@[simp] theorem complete_done (c : Byte) (m : Nat) (s : State) : (complete c m s).status.done = true := rfl
@[simp] theorem complete_ovr (c : Byte) (m : Nat) (s : State) : (complete c m s).status.ovr = s.status.ovr := rfl
@[simp] theorem complete_err (c : Byte) (m : Nat) (s : State) : (complete c m s).status.err = c := rfl
@[simp] theorem complete_outLen (c : Byte) (m : Nat) (s : State) :
    (complete c m s).outLen = BitVec.ofNat 32 m := rfl
@[simp] theorem complete_regs (c : Byte) (m : Nat) (s : State) : (complete c m s).regs = s.regs := rfl
@[simp] theorem complete_slot (c : Byte) (m : Nat) (s : State) : (complete c m s).slot = s.slot := rfl
@[simp] theorem complete_latch (c : Byte) (m : Nat) (s : State) : (complete c m s).latch = s.latch := rfl
@[simp] theorem complete_mem (c : Byte) (m : Nat) (s : State) : (complete c m s).mem = s.mem := rfl
@[simp] theorem complete_env (c : Byte) (m : Nat) (s : State) : (complete c m s).env = s.env := rfl
@[simp] theorem complete_faultSeen (c : Byte) (m : Nat) (s : State) :
    (complete c m s).faultSeen = (s.faultSeen || isFaultByte c) := rfl

/-! ### raise -/

@[simp] theorem raise_params (e : ErrCode) (s : State) : (raise e s).params = s.params := rfl
@[simp] theorem raise_ctrl (e : ErrCode) (s : State) : (raise e s).ctrl = s.ctrl := rfl
@[simp] theorem raise_busy (e : ErrCode) (s : State) : (raise e s).status.busy = false := rfl
@[simp] theorem raise_done (e : ErrCode) (s : State) : (raise e s).status.done = true := rfl
@[simp] theorem raise_ovr (e : ErrCode) (s : State) : (raise e s).status.ovr = s.status.ovr := rfl
@[simp] theorem raise_err (e : ErrCode) (s : State) : (raise e s).status.err = e.byte := rfl
@[simp] theorem raise_outLen (e : ErrCode) (s : State) :
    (raise e s).outLen = 0 := rfl
@[simp] theorem raise_regs (e : ErrCode) (s : State) : (raise e s).regs = s.regs := rfl
@[simp] theorem raise_slot (e : ErrCode) (s : State) : (raise e s).slot = s.slot := rfl
@[simp] theorem raise_latch (e : ErrCode) (s : State) : (raise e s).latch = s.latch := rfl
@[simp] theorem raise_mem (e : ErrCode) (s : State) : (raise e s).mem = s.mem := rfl
@[simp] theorem raise_env (e : ErrCode) (s : State) : (raise e s).env = s.env := rfl
@[simp] theorem raise_faultSeen (e : ErrCode) (s : State) :
    (raise e s).faultSeen = (s.faultSeen || isFaultByte e.byte) := rfl

/-! ### finish -/

@[simp] theorem finish_params (m : Nat) (s : State) : (finish m s).params = s.params := rfl
@[simp] theorem finish_ctrl (m : Nat) (s : State) : (finish m s).ctrl = s.ctrl := rfl
@[simp] theorem finish_busy (m : Nat) (s : State) : (finish m s).status.busy = false := rfl
@[simp] theorem finish_done (m : Nat) (s : State) : (finish m s).status.done = true := rfl
@[simp] theorem finish_ovr (m : Nat) (s : State) : (finish m s).status.ovr = s.status.ovr := rfl
@[simp] theorem finish_err (m : Nat) (s : State) : (finish m s).status.err = 0 := rfl
@[simp] theorem finish_outLen (m : Nat) (s : State) :
    (finish m s).outLen = BitVec.ofNat 32 m := rfl
@[simp] theorem finish_regs (m : Nat) (s : State) : (finish m s).regs = s.regs := rfl
@[simp] theorem finish_slot (m : Nat) (s : State) : (finish m s).slot = s.slot := rfl
@[simp] theorem finish_latch (m : Nat) (s : State) : (finish m s).latch = s.latch := rfl
@[simp] theorem finish_mem (m : Nat) (s : State) : (finish m s).mem = s.mem := rfl
@[simp] theorem finish_env (m : Nat) (s : State) : (finish m s).env = s.env := rfl
@[simp] theorem finish_faultSeen (m : Nat) (s : State) : (finish m s).faultSeen = s.faultSeen := by
  simp [finish, complete, isFaultByte]

/-! ### ackStatus -/

@[simp] theorem ackStatus_params (v : Word) (s : State) : (ackStatus v s).params = s.params := rfl
@[simp] theorem ackStatus_ctrl (v : Word) (s : State) : (ackStatus v s).ctrl = s.ctrl := rfl
@[simp] theorem ackStatus_busy (v : Word) (s : State) : (ackStatus v s).status.busy = s.status.busy := rfl
@[simp] theorem ackStatus_done (v : Word) (s : State) : (ackStatus v s).status.done = (s.status.done && !v.getLsbD 1) := rfl
@[simp] theorem ackStatus_ovr (v : Word) (s : State) : (ackStatus v s).status.ovr = (s.status.ovr && !v.getLsbD 3) := rfl
@[simp] theorem ackStatus_err (v : Word) (s : State) : (ackStatus v s).status.err = s.status.err := rfl
@[simp] theorem ackStatus_outLen (v : Word) (s : State) : (ackStatus v s).outLen = s.outLen := rfl
@[simp] theorem ackStatus_regs (v : Word) (s : State) : (ackStatus v s).regs = s.regs := rfl
@[simp] theorem ackStatus_slot (v : Word) (s : State) : (ackStatus v s).slot = s.slot := rfl
@[simp] theorem ackStatus_latch (v : Word) (s : State) : (ackStatus v s).latch = s.latch := rfl
@[simp] theorem ackStatus_mem (v : Word) (s : State) : (ackStatus v s).mem = s.mem := rfl
@[simp] theorem ackStatus_env (v : Word) (s : State) : (ackStatus v s).env = s.env := rfl
@[simp] theorem ackStatus_faultSeen (v : Word) (s : State) : (ackStatus v s).faultSeen = s.faultSeen := rfl

/-! ### issue -/

@[simp] theorem issue_params (v : Word) (s : State) : (issue v s).params = s.params := rfl
@[simp] theorem issue_ctrl (v : Word) (s : State) : (issue v s).ctrl = s.ctrl := rfl
@[simp] theorem issue_busy (v : Word) (s : State) : (issue v s).status.busy = true := rfl
@[simp] theorem issue_done (v : Word) (s : State) : (issue v s).status.done = false := rfl
@[simp] theorem issue_ovr (v : Word) (s : State) : (issue v s).status.ovr = s.status.ovr := rfl
@[simp] theorem issue_err (v : Word) (s : State) : (issue v s).status.err = 0 := rfl
@[simp] theorem issue_outLen (v : Word) (s : State) : (issue v s).outLen = s.outLen := rfl
@[simp] theorem issue_regs (v : Word) (s : State) : (issue v s).regs = s.regs := rfl
@[simp] theorem issue_slot (v : Word) (s : State) : (issue v s).slot = s.slot := rfl
@[simp] theorem issue_latch (v : Word) (s : State) :
    (issue v s).latch = latchOf v s := rfl
@[simp] theorem issue_mem (v : Word) (s : State) : (issue v s).mem = s.mem := rfl
@[simp] theorem issue_env (v : Word) (s : State) : (issue v s).env = s.env := rfl
@[simp] theorem issue_faultSeen (v : Word) (s : State) : (issue v s).faultSeen = s.faultSeen := rfl

/-! ### markOverrun -/

@[simp] theorem markOverrun_params (s : State) : (markOverrun s).params = s.params := rfl
@[simp] theorem markOverrun_ctrl (s : State) : (markOverrun s).ctrl = s.ctrl := rfl
@[simp] theorem markOverrun_busy (s : State) : (markOverrun s).status.busy = s.status.busy := rfl
@[simp] theorem markOverrun_done (s : State) : (markOverrun s).status.done = s.status.done := rfl
@[simp] theorem markOverrun_ovr (s : State) : (markOverrun s).status.ovr = true := rfl
@[simp] theorem markOverrun_err (s : State) : (markOverrun s).status.err = s.status.err := rfl
@[simp] theorem markOverrun_outLen (s : State) : (markOverrun s).outLen = s.outLen := rfl
@[simp] theorem markOverrun_regs (s : State) : (markOverrun s).regs = s.regs := rfl
@[simp] theorem markOverrun_slot (s : State) : (markOverrun s).slot = s.slot := rfl
@[simp] theorem markOverrun_latch (s : State) : (markOverrun s).latch = s.latch := rfl
@[simp] theorem markOverrun_mem (s : State) : (markOverrun s).mem = s.mem := rfl
@[simp] theorem markOverrun_env (s : State) : (markOverrun s).env = s.env := rfl
@[simp] theorem markOverrun_faultSeen (s : State) : (markOverrun s).faultSeen = s.faultSeen := rfl

/-! ### writeCtrl -/

@[simp] theorem writeCtrl_params (v : Word) (s : State) : (writeCtrl v s).params = s.params := rfl
@[simp] theorem writeCtrl_ctrl (v : Word) (s : State) :
    (writeCtrl v s).ctrl = ctrlOfWord v := rfl
@[simp] theorem writeCtrl_status (v : Word) (s : State) : (writeCtrl v s).status = s.status := rfl
@[simp] theorem writeCtrl_outLen (v : Word) (s : State) : (writeCtrl v s).outLen = s.outLen := rfl
@[simp] theorem writeCtrl_regs (v : Word) (s : State) : (writeCtrl v s).regs = s.regs := rfl
@[simp] theorem writeCtrl_slot (v : Word) (s : State) : (writeCtrl v s).slot = s.slot := rfl
@[simp] theorem writeCtrl_latch (v : Word) (s : State) : (writeCtrl v s).latch = s.latch := rfl
@[simp] theorem writeCtrl_mem (v : Word) (s : State) : (writeCtrl v s).mem = s.mem := rfl
@[simp] theorem writeCtrl_env (v : Word) (s : State) : (writeCtrl v s).env = s.env := rfl
@[simp] theorem writeCtrl_faultSeen (v : Word) (s : State) : (writeCtrl v s).faultSeen = s.faultSeen := rfl

/-! ### setRegs -/

@[simp] theorem setRegs_params (r : ParamRegs) (s : State) : (setRegs r s).params = s.params := rfl
@[simp] theorem setRegs_ctrl (r : ParamRegs) (s : State) : (setRegs r s).ctrl = s.ctrl := rfl
@[simp] theorem setRegs_status (r : ParamRegs) (s : State) : (setRegs r s).status = s.status := rfl
@[simp] theorem setRegs_outLen (r : ParamRegs) (s : State) : (setRegs r s).outLen = s.outLen := rfl
@[simp] theorem setRegs_regs (r : ParamRegs) (s : State) :
    (setRegs r s).regs = r := rfl
@[simp] theorem setRegs_slot (r : ParamRegs) (s : State) : (setRegs r s).slot = s.slot := rfl
@[simp] theorem setRegs_latch (r : ParamRegs) (s : State) : (setRegs r s).latch = s.latch := rfl
@[simp] theorem setRegs_mem (r : ParamRegs) (s : State) : (setRegs r s).mem = s.mem := rfl
@[simp] theorem setRegs_env (r : ParamRegs) (s : State) : (setRegs r s).env = s.env := rfl
@[simp] theorem setRegs_faultSeen (r : ParamRegs) (s : State) : (setRegs r s).faultSeen = s.faultSeen := rfl

/-! ### popTurn -/

@[simp] theorem popTurn_params (s : State) : (popTurn s).params = s.params := rfl
@[simp] theorem popTurn_ctrl (s : State) : (popTurn s).ctrl = s.ctrl := rfl
@[simp] theorem popTurn_status (s : State) : (popTurn s).status = s.status := rfl
@[simp] theorem popTurn_outLen (s : State) : (popTurn s).outLen = s.outLen := rfl
@[simp] theorem popTurn_regs (s : State) : (popTurn s).regs = s.regs := rfl
@[simp] theorem popTurn_slot (s : State) : (popTurn s).slot = s.slot := rfl
@[simp] theorem popTurn_latch (s : State) : (popTurn s).latch = s.latch := rfl
@[simp] theorem popTurn_mem (s : State) : (popTurn s).mem = s.mem := rfl
@[simp] theorem popTurn_env (s : State) :
    (popTurn s).env = { s.env with sched := s.env.sched.tail } := rfl
@[simp] theorem popTurn_faultSeen (s : State) : (popTurn s).faultSeen = s.faultSeen := rfl

/-! ### engineNext -/

@[simp] theorem engineNext_params (s : State) : (engineNext s).params = s.params := rfl
@[simp] theorem engineNext_ctrl (s : State) : (engineNext s).ctrl = s.ctrl := rfl
@[simp] theorem engineNext_status (s : State) : (engineNext s).status = s.status := rfl
@[simp] theorem engineNext_outLen (s : State) : (engineNext s).outLen = s.outLen := rfl
@[simp] theorem engineNext_regs (s : State) : (engineNext s).regs = s.regs := rfl
@[simp] theorem engineNext_slot (s : State) : (engineNext s).slot = s.slot := rfl
@[simp] theorem engineNext_latch (s : State) : (engineNext s).latch = s.latch := rfl
@[simp] theorem engineNext_mem (s : State) : (engineNext s).mem = s.mem := rfl
@[simp] theorem engineNext_env (s : State) :
    (engineNext s).env = { s.env with sched := .engine :: s.env.sched } := rfl
@[simp] theorem engineNext_faultSeen (s : State) : (engineNext s).faultSeen = s.faultSeen := rfl

/-! ### popHost -/

@[simp] theorem popHost_params (s : State) : (popHost s).params = s.params := rfl
@[simp] theorem popHost_ctrl (s : State) : (popHost s).ctrl = s.ctrl := rfl
@[simp] theorem popHost_status (s : State) : (popHost s).status = s.status := rfl
@[simp] theorem popHost_outLen (s : State) : (popHost s).outLen = s.outLen := rfl
@[simp] theorem popHost_regs (s : State) : (popHost s).regs = s.regs := rfl
@[simp] theorem popHost_slot (s : State) : (popHost s).slot = s.slot := rfl
@[simp] theorem popHost_latch (s : State) : (popHost s).latch = s.latch := rfl
@[simp] theorem popHost_mem (s : State) : (popHost s).mem = s.mem := rfl
@[simp] theorem popHost_env (s : State) :
    (popHost s).env = { s.env with host := s.env.host.tail } := rfl
@[simp] theorem popHost_faultSeen (s : State) : (popHost s).faultSeen = s.faultSeen := rfl

/-! ### record -/

@[simp] theorem record_params (e : TraceEntry) (s : State) : (record e s).params = s.params := rfl
@[simp] theorem record_ctrl (e : TraceEntry) (s : State) : (record e s).ctrl = s.ctrl := rfl
@[simp] theorem record_status (e : TraceEntry) (s : State) : (record e s).status = s.status := rfl
@[simp] theorem record_outLen (e : TraceEntry) (s : State) : (record e s).outLen = s.outLen := rfl
@[simp] theorem record_regs (e : TraceEntry) (s : State) : (record e s).regs = s.regs := rfl
@[simp] theorem record_slot (e : TraceEntry) (s : State) : (record e s).slot = s.slot := rfl
@[simp] theorem record_latch (e : TraceEntry) (s : State) : (record e s).latch = s.latch := rfl
@[simp] theorem record_mem (e : TraceEntry) (s : State) : (record e s).mem = s.mem := rfl
@[simp] theorem record_env (e : TraceEntry) (s : State) :
    (record e s).env = { s.env with trace := s.env.trace ++ [e] } := rfl
@[simp] theorem record_faultSeen (e : TraceEntry) (s : State) : (record e s).faultSeen = s.faultSeen := rfl

/-! ### scrambleSpan -/

@[simp] theorem scrambleSpan_params (r : Span) (s : State) : (scrambleSpan r s).params = s.params := rfl
@[simp] theorem scrambleSpan_ctrl (r : Span) (s : State) : (scrambleSpan r s).ctrl = s.ctrl := rfl
@[simp] theorem scrambleSpan_status (r : Span) (s : State) : (scrambleSpan r s).status = s.status := rfl
@[simp] theorem scrambleSpan_outLen (r : Span) (s : State) : (scrambleSpan r s).outLen = s.outLen := rfl
@[simp] theorem scrambleSpan_regs (r : Span) (s : State) : (scrambleSpan r s).regs = s.regs := rfl
@[simp] theorem scrambleSpan_slot (r : Span) (s : State) : (scrambleSpan r s).slot = s.slot := rfl
@[simp] theorem scrambleSpan_latch (r : Span) (s : State) : (scrambleSpan r s).latch = s.latch := rfl
@[simp] theorem scrambleSpan_mem (r : Span) (s : State) :
    (scrambleSpan r s).mem = s.mem.writeBytes r.base (freeBytes s.env.draws r.len) := rfl
@[simp] theorem scrambleSpan_env (r : Span) (s : State) :
    (scrambleSpan r s).env = { s.env with draws := s.env.draws + r.len } := rfl
@[simp] theorem scrambleSpan_faultSeen (r : Span) (s : State) : (scrambleSpan r s).faultSeen = s.faultSeen := rfl

/-! ### resetBlock -/

@[simp] theorem resetBlock_params (s : State) : (resetBlock s).params = s.params := rfl
@[simp] theorem resetBlock_ctrl (s : State) :
    (resetBlock s).ctrl = Ctrl.reset := rfl
@[simp] theorem resetBlock_status (s : State) :
    (resetBlock s).status = Status.reset := rfl
@[simp] theorem resetBlock_outLen (s : State) :
    (resetBlock s).outLen = 0 := rfl
@[simp] theorem resetBlock_regs (s : State) :
    (resetBlock s).regs = ParamRegs.reset := rfl
@[simp] theorem resetBlock_slot (s : State) :
    (resetBlock s).slot = Slot.empty := rfl
@[simp] theorem resetBlock_latch (s : State) :
    (resetBlock s).latch = Latch.reset := rfl
@[simp] theorem resetBlock_mem (s : State) : (resetBlock s).mem = s.mem := rfl
@[simp] theorem resetBlock_env (s : State) : (resetBlock s).env = s.env := rfl
@[simp] theorem resetBlock_faultSeen (s : State) : (resetBlock s).faultSeen = s.faultSeen := rfl

end Sys2Proof.Machine
end

