-- ==== Sys2Proof/Laws/Memory.lean ====
section
/-! SUPPORT. Laws of byte sequences and of data memory: read after write, the canonical form, and what a wide write leaves
alone. -/

namespace Sys2Proof.Machine

/-! ### Byte sequences -/

@[simp] theorem fit_val (n : Nat) (b : List Byte) : (fit n b).val = fitList n b := rfl

theorem fitList_eq (n : Nat) (b : List Byte) : fitList n b = b.take n ++ List.replicate (n - b.length) 0 := by
  induction n generalizing b with
  | zero => simp [fitList]
  | succ n ih =>
    cases b with
    | nil => simp [fitList, ih, List.replicate_succ]
    | cons x xs => simp [fitList, ih]

theorem fitList_of_length {n : Nat} {b : List Byte} (h : b.length = n) : fitList n b = b := by
  rw [fitList_eq, List.take_of_length_le (by omega)]
  simp [h]

theorem xorBytes_cancel {n : Nat} (a b : Bytes n) : xorBytes (xorBytes a b) b = a := by
  apply Subtype.ext
  apply List.ext_getElem
  · simp [xorBytes, a.property, b.property]
  · intro i h1 h2
    simp [xorBytes]

/-! ### One byte -/

theorem Memory.byte_store_other (m : Memory) {a k : Nat} (b : Byte) (h : k ≠ a) : (m.store a b).byte k = m.byte k := by
  induction m with
  | nil =>
    by_cases hb : b = Memory.blank <;> simp [Memory.store, Memory.byte, hb]
    intro h'; exact absurd h'.symm h
  | cons c rest ih =>
    obtain ⟨x, v⟩ := c
    simp only [Memory.store]
    split_ifs <;> simp_all [Memory.byte, eq_comm]

/-- Below every listed address memory is blank. -/
theorem Memory.byte_of_lt {m : Memory} {a : Nat} (h : ∀ c ∈ m, a < c.1) : m.byte a = Memory.blank := by
  induction m with
  | nil => rfl
  | cons c rest ih =>
    obtain ⟨x, v⟩ := c
    have hx : a < x := h (x, v) (by simp)
    have : x ≠ a := by omega
    simp only [Memory.byte, this, if_false]
    exact ih (fun c hc => h c (by simp [hc]))

theorem Memory.byte_store_same {m : Memory} (hm : m.wf) (a : Nat) (b : Byte) : (m.store a b).byte a = b := by
  induction m with
  | nil => by_cases hb : b = Memory.blank <;> simp [Memory.store, Memory.byte, hb]
  | cons c rest ih =>
    obtain ⟨x, v⟩ := c
    obtain ⟨hp, hn⟩ := hm
    rw [List.pairwise_cons] at hp
    have hrest : Memory.wf rest := ⟨hp.2, fun c hc => hn c (by simp [hc])⟩
    simp only [Memory.store]
    split_ifs with h1 h2 h3 h4
    · rw [h2]
      apply Memory.byte_of_lt
      intro c hc
      rcases List.mem_cons.mp hc with rfl | hc
      · exact h1
      · have := hp.1 c hc; simp at this; omega
    · simp [Memory.byte]
    · rw [h4, h3]
      exact Memory.byte_of_lt (fun c hc => hp.1 c hc)
    · simp [Memory.byte]
    · have : x ≠ a := fun h => h3 h.symm
      simp only [Memory.byte, this, if_false]
      exact ih hrest

/-- Every entry of a memory after a store is an old entry or the stored byte. -/
theorem Memory.mem_store {m : Memory} {a : Nat} {b : Byte} {c : Host.Cell} (h : c ∈ m.store a b) :
    c ∈ m ∨ (c = (a, b) ∧ b ≠ Memory.blank) := by
  induction m with
  | nil =>
    simp only [Memory.store] at h
    split_ifs at h with hb
    · simp at h
    · simp at h; exact .inr ⟨h, hb⟩
  | cons d rest ih =>
    obtain ⟨x, v⟩ := d
    simp only [Memory.store] at h
    split_ifs at h with h1 h2 h3 h4
    · exact .inl h
    · rcases List.mem_cons.mp h with h | h
      · exact .inr ⟨h, h2⟩
      · exact .inl h
    · exact .inl (by simp [h])
    · rcases List.mem_cons.mp h with h | h
      · exact .inr ⟨h, h4⟩
      · exact .inl (by simp [h])
    · rcases List.mem_cons.mp h with h | h
      · exact .inl (by simp [h])
      · rcases ih h with h | h
        · exact .inl (by simp [h])
        · exact .inr h

/-- A store keeps the canonical form. -/
theorem Memory.wf_store {m : Memory} (hm : m.wf) (a : Nat) (b : Byte) : Memory.wf (m.store a b) := by
  refine ⟨?_, fun c hc => ?_⟩
  · obtain ⟨hp, hn⟩ := hm
    induction m with
    | nil => simp only [Memory.store]; split_ifs <;> simp
    | cons d rest ih =>
      obtain ⟨x, v⟩ := d
      rw [List.pairwise_cons] at hp
      simp only [Memory.store]
      split_ifs with h1 h2 h3 h4
      · exact List.pairwise_cons.mpr hp
      · refine List.pairwise_cons.mpr ⟨fun c hc => ?_, List.pairwise_cons.mpr hp⟩
        rcases List.mem_cons.mp hc with rfl | hc
        · exact h1
        · have := hp.1 c hc; simp at this ⊢; omega
      · exact hp.2
      · refine List.pairwise_cons.mpr ⟨fun c hc => ?_, hp.2⟩
        have := hp.1 c hc; simp at this ⊢; omega
      · refine List.pairwise_cons.mpr ⟨fun c hc => ?_, ih hp.2 (fun c hc => hn c (by simp [hc]))⟩
        rcases Memory.mem_store hc with hc | ⟨rfl, _⟩
        · exact hp.1 c hc
        · simp; omega
  · rcases Memory.mem_store hc with hc | ⟨rfl, hb⟩
    · exact hm.2 c hc
    · exact hb

/-! ### Many bytes -/

@[simp] theorem Memory.length_readBytes (m : Memory) (a n : Nat) : (m.readBytes a n).length = n := by
  induction n generalizing a with
  | zero => rfl
  | succ n ih => simp [Memory.readBytes, ih]

/-- `MemRead` reads the byte at `a + i` at index `i` (R14). -/
theorem Memory.getElem_readBytes (m : Memory) (a n i : Nat) (h : i < (m.readBytes a n).length) :
    (m.readBytes a n)[i] = m.byte (a + i) := by
  induction n generalizing a i with
  | zero => simp [Memory.readBytes] at h
  | succ n ih =>
    cases i with
    | zero => simp [Memory.readBytes]
    | succ i =>
      simp only [Memory.readBytes, List.getElem_cons_succ]
      rw [ih]
      congr 1
      omega

/-- Equal bytes read as equal sequences. -/
theorem Memory.readBytes_congr {m m' : Memory} {a a' n : Nat} (h : ∀ i < n, m.byte (a + i) = m'.byte (a' + i)) :
    m.readBytes a n = m'.readBytes a' n := by
  apply List.ext_getElem
  · simp
  · intro i h1 _
    rw [Memory.getElem_readBytes, Memory.getElem_readBytes]
    exact h i (by simpa using h1)

/-- A wide write leaves every other byte alone (R79). -/
theorem Memory.byte_writeBytes_other (m : Memory) (a : Nat) (v : List Byte) {k : Nat}
    (h : ¬(a ≤ k ∧ k < a + v.length)) : (m.writeBytes a v).byte k = m.byte k := by
  induction v generalizing m a with
  | nil => rfl
  | cons b bs ih =>
    simp only [Memory.writeBytes]
    simp only [List.length_cons] at h
    rw [ih _ _ (by omega), Memory.byte_store_other]
    omega

/-- A wide write keeps the canonical form. -/
theorem Memory.wf_writeBytes {m : Memory} (hm : m.wf) (a : Nat) (v : List Byte) : Memory.wf (m.writeBytes a v) := by
  induction v generalizing m a with
  | nil => exact hm
  | cons b bs ih => exact ih (Memory.wf_store hm a b) (a + 1)

/-- A wide write is read back (R14). -/
theorem Memory.byte_writeBytes_same {m : Memory} (hm : m.wf) (a : Nat) (v : List Byte) (i : Nat) (h : i < v.length) :
    (m.writeBytes a v).byte (a + i) = v[i] := by
  induction v generalizing m a i with
  | nil => simp at h
  | cons b bs ih =>
    simp only [Memory.writeBytes]
    cases i with
    | zero =>
      rw [Memory.byte_writeBytes_other _ _ _ (by omega)]
      exact Memory.byte_store_same hm a b
    | succ i =>
      have := ih (Memory.wf_store hm a b) (a + 1) i (by simpa using h)
      simp only [List.getElem_cons_succ]
      rw [← this]
      congr 1
      omega

/-- Every entry after a wide write is an old one or lies in the range written. -/
theorem Memory.mem_writeBytes {m : Memory} {a : Nat} {v : List Byte} {c : Host.Cell} (h : c ∈ m.writeBytes a v) :
    c ∈ m ∨ (a ≤ c.1 ∧ c.1 < a + v.length) := by
  induction v generalizing m a with
  | nil => exact .inl h
  | cons b bs ih =>
    rcases ih h with h | ⟨h1, h2⟩
    · rcases Memory.mem_store h with h | ⟨rfl, _⟩
      · exact .inl h
      · exact .inr ⟨by simp, by simp⟩
    · exact .inr ⟨by omega, by simp only [List.length_cons]; omega⟩

/-- Two canonical memories with equal bytes are equal data. -/
theorem Memory.ext {m m' : Memory} (hm : m.wf) (hm' : m'.wf) (h : ∀ a, m.byte a = m'.byte a) : m = m' := by
  induction m generalizing m' with
  | nil =>
    cases m' with
    | nil => rfl
    | cons d r =>
      have := h d.1
      simp [Memory.byte] at this
      exact absurd this.symm (hm'.2 d (by simp))
  | cons c rest ih =>
    obtain ⟨x, v⟩ := c
    have hp := List.pairwise_cons.mp hm.1
    have hrest : Memory.wf rest := ⟨hp.2, fun c hc => hm.2 c (by simp [hc])⟩
    have hv : v ≠ Memory.blank := hm.2 (x, v) (by simp)
    cases m' with
    | nil =>
      have := h x
      simp [Memory.byte] at this
      exact absurd this hv
    | cons d rest' =>
      obtain ⟨y, w⟩ := d
      have hp' := List.pairwise_cons.mp hm'.1
      have hrest' : Memory.wf rest' := ⟨hp'.2, fun c hc => hm'.2 c (by simp [hc])⟩
      have hw : w ≠ Memory.blank := hm'.2 (y, w) (by simp)
      have hxy : x = y := by
        rcases Nat.lt_trichotomy x y with hlt | heq | hgt
        · exfalso
          have h1 := h x
          have h2 : Memory.byte ((y, w) :: rest') x = Memory.blank := by
            apply Memory.byte_of_lt
            intro c hc
            rcases List.mem_cons.mp hc with rfl | hc
            · exact hlt
            · have := hp'.1 c hc; simp at this; omega
          rw [h2] at h1
          simp [Memory.byte] at h1
          exact hv h1
        · exact heq
        · exfalso
          have h1 := h y
          have h2 : Memory.byte ((x, v) :: rest) y = Memory.blank := by
            apply Memory.byte_of_lt
            intro c hc
            rcases List.mem_cons.mp hc with rfl | hc
            · exact hgt
            · have := hp.1 c hc; simp at this; omega
          rw [h2] at h1
          simp [Memory.byte] at h1
          exact hw h1.symm
      subst hxy
      have hvw : v = w := by have := h x; simpa [Memory.byte] using this
      subst hvw
      congr 1
      apply ih hrest hrest'
      intro a
      by_cases ha : x = a
      · subst ha
        rw [Memory.byte_of_lt (fun c hc => hp.1 c hc), Memory.byte_of_lt (fun c hc => hp'.1 c hc)]
      · have := h a
        simpa [Memory.byte, ha] using this

/-! ### Ranges -/

theorem admitted_iff (p : Params) (a n : Nat) : admitted p a n = true ↔ n = 0 ∨ a + n ≤ p.memSize := by
  simp [admitted]

theorem overlaps_iff (a m b n : Nat) : overlaps a m b n = true ↔ m > 0 ∧ n > 0 ∧ a < b + n ∧ b < a + m := by
  simp [overlaps]

theorem Span.holds_iff (r : Span) (a : Nat) : r.holds a = true ↔ r.base ≤ a ∧ a < r.base + r.len := by
  simp [Span.holds]

/-- The range check passes exactly when both ranges are admitted and they do not overlap (R73, R89, R206). -/
theorem rangeCheck_none_iff (p : Params) (a n b m : Nat) :
    rangeCheck p a n b m = none ↔ admitted p a n = true ∧ admitted p b m = true ∧ overlaps a n b m = false := by
  unfold rangeCheck
  split_ifs <;> simp_all

end Sys2Proof.Machine
end

