-- ==== Sys2Proof/Laws/Codec.lean ====
section
/-! SUPPORT. Laws of the padding codec and of the chaining (spec/41_padding.md, spec/42_cbc.md). -/

namespace Sys2Proof.Machine

/-! ### Padding -/

theorem padcount_pos (l : Nat) : 1 ≤ padcount l := by unfold padcount; omega

theorem padcount_le (l : Nat) : padcount l ≤ 16 := by unfold padcount; omega

/-- The padded length is a whole number of blocks. -/
theorem padcount_whole (l : Nat) : (l + padcount l) % 16 = 0 := by unfold padcount; omega

@[simp] theorem length_padBytes (b : List Byte) : (padBytes b).length = b.length + padcount b.length := by
  simp [padBytes]

@[simp] theorem length_inputBytes (s : State) : (inputBytes s).length = s.latch.slenN := by simp [inputBytes]

/-- `inputBytes` depends on the operand fields and the input bytes alone. -/
theorem inputBytes_congr {s t : State} (hl : t.latch.slenN = s.latch.slenN)
    (h : ∀ i < s.latch.slenN, t.mem.byte (t.latch.srcN + i) = s.mem.byte (s.latch.srcN + i)) :
    inputBytes t = inputBytes s := by
  unfold inputBytes
  rw [hl]
  exact Memory.readBytes_congr h

/-- What an unpad can answer: a length that is no more than the input's. -/
theorem unpadBytes_le {b : List Byte} {h : Bool} {m : Nat} (e : unpadBytes b h = .ok m) : m ≤ b.length := by
  unfold unpadBytes unpadF unpadH at e
  cases h <;> simp only [Bool.false_eq_true, if_false, if_true] at e <;> split at e
  · simp at e
  · split_ifs at e
    simp at e; omega
  · simp at e
  · split_ifs at e
    simp at e; omega

/-- What an unpad can raise (R152, R153). -/
theorem unpadBytes_error {b : List Byte} {h : Bool} {e : ErrCode} (he : unpadBytes b h = .error e) :
    (h = true ∧ e = .invalidPadding) ∨ (h = false ∧ (e = .faultEmptyInput ∨ e = .faultUnpadBounds)) := by
  unfold unpadBytes unpadF unpadH at he
  cases h <;> simp only [Bool.false_eq_true, if_false, if_true] at he <;> split at he
  · simp at he; exact .inr ⟨rfl, .inl he.symm⟩
  · split_ifs at he
    simp at he; exact .inr ⟨rfl, .inr he.symm⟩
  · simp at he; exact .inl ⟨rfl, he.symm⟩
  · split_ifs at he <;> simp at he <;> exact .inl ⟨rfl, he.symm⟩

/-! ### Blocks -/

@[simp] theorem length_splitBlocks (k : Nat) (b : List Byte) : (splitBlocks k b).length = k := by
  induction k generalizing b with
  | zero => rfl
  | succ k ih => simp [splitBlocks, ih]

@[simp] theorem length_joinBlocks (bs : List Block) : (joinBlocks bs).length = 16 * bs.length := by
  induction bs with
  | nil => rfl
  | cons b bs ih => simp [joinBlocks, ih, b.property]; omega

/-- A block joined to others is the first block split off. -/
theorem splitBlocks_joinBlocks (bs : List Block) : splitBlocks bs.length (joinBlocks bs) = bs := by
  induction bs with
  | nil => rfl
  | cons b bs ih =>
    simp only [joinBlocks, List.length_cons, splitBlocks]
    have h1 : fit 16 (b.val ++ joinBlocks bs) = b := by
      apply Subtype.ext
      rw [fit_val, fitList_eq, List.take_left' b.property]
      simp [b.property]
    rw [h1, List.drop_left' b.property, ih]

/-- Whole blocks joined give the byte sequence back. -/
theorem joinBlocks_splitBlocks (k : Nat) (b : List Byte) (h : b.length = 16 * k) : joinBlocks (splitBlocks k b) = b := by
  induction k generalizing b with
  | zero => simp at h; simp [splitBlocks, joinBlocks, h]
  | succ k ih =>
    simp only [splitBlocks, joinBlocks, fit_val]
    rw [ih _ (by simp; omega), fitList_eq, show 16 - b.length = 0 by omega]
    simp

/-- Block `j` of a byte sequence, as the splitting gives it. -/
theorem getElem?_splitBlocks (b : List Byte) (k j : Nat) (h : j < k) : (splitBlocks k b)[j]? = some (blockAt b j) := by
  induction k generalizing b j with
  | zero => omega
  | succ k ih =>
    simp only [splitBlocks]
    cases j with
    | zero => simp [blockAt]
    | succ j =>
      simp only [List.getElem?_cons_succ]
      rw [ih _ _ (by omega)]
      simp only [blockAt, List.drop_drop]
      congr 3
      omega

/-- Block `j` of joined blocks is the block number `j`. -/
theorem blockAt_joinBlocks (bs : List Block) (j : Nat) (h : j < bs.length) : blockAt (joinBlocks bs) j = bs[j] := by
  have := getElem?_splitBlocks (joinBlocks bs) bs.length j h
  rw [splitBlocks_joinBlocks, List.getElem?_eq_getElem h] at this
  simpa using this.symm

/-! ### Chaining -/

@[simp] theorem length_cbcEncLoop (enc : Block → Block) (cv : Block) (ps : List Block) :
    (cbcEncLoop enc cv ps).length = ps.length := by
  induction ps generalizing cv with
  | nil => rfl
  | cons p ps ih => simp [cbcEncLoop, ih]

@[simp] theorem length_cbcDecLoop (dec : Block → Block) (cv : Block) (cs : List Block) :
    (cbcDecLoop dec cv cs).length = cs.length := by
  induction cs generalizing cv with
  | nil => rfl
  | cons c cs ih => simp [cbcDecLoop, ih]

/-- Block `j` of the encryption loop, from the block before it. -/
theorem getElem?_cbcEncLoop (enc : Block → Block) (cv : Block) (ps : List Block) (j : Nat) (h : j < ps.length) :
    (cbcEncLoop enc cv ps)[j]? =
      some (enc (xorBytes ps[j] (if j = 0 then cv else (cbcEncLoop enc cv ps).getD (j - 1) cv))) := by
  induction ps generalizing cv j with
  | nil => simp at h
  | cons p ps ih =>
    cases j with
    | zero => simp [cbcEncLoop]
    | succ j =>
      simp only [cbcEncLoop, List.getElem?_cons_succ, List.getElem_cons_succ]
      rw [ih _ _ (by simpa using h)]
      cases j with
      | zero => simp
      | succ j =>
        have hj : j < (cbcEncLoop enc (enc (xorBytes p cv)) ps).length := by simp at *; omega
        simp [List.getElem?_eq_getElem hj]

/-- Block `j` of the decryption loop, from the input block before it. -/
theorem getElem?_cbcDecLoop (dec : Block → Block) (cv : Block) (cs : List Block) (j : Nat) (h : j < cs.length) :
    (cbcDecLoop dec cv cs)[j]? = some (xorBytes (dec cs[j]) (if j = 0 then cv else cs.getD (j - 1) cv)) := by
  induction cs generalizing cv j with
  | nil => simp at h
  | cons c cs ih =>
    cases j with
    | zero => simp [cbcDecLoop]
    | succ j =>
      simp only [cbcDecLoop, List.getElem?_cons_succ, List.getElem_cons_succ]
      have hj : j < cs.length := by simpa using h
      rw [ih _ _ hj]
      cases j with
      | zero => simp
      | succ j => simp [List.getElem?_eq_getElem (show j < cs.length by omega)]

/-- `len(C) = len(P)` for whole blocks (R170). -/
theorem length_cbcEnc (key : List Byte) (iv : Block) (p : List Byte) (h : p.length % 16 = 0) :
    (cbcEnc key iv p).length = p.length := by
  simp [cbcEnc]; omega

/-- `len(P) = len(C)` for whole blocks (R171). -/
theorem length_cbcDec (key : List Byte) (iv : Block) (c : List Byte) (h : c.length % 16 = 0) :
    (cbcDec key iv c).length = c.length := by
  simp [cbcDec]; omega

/-- The primitive undoes itself (R18). -/
@[simp] theorem aesDec_aesEnc (key : List Byte) (b : Block) : Config.aesDec key (Config.aesEnc key b) = b := by
  simp [Config.aesDec, Config.aesEnc]

end Sys2Proof.Machine
end

