-- ==== Sys2Proof/Laws/PerInstr.lean ====
section
/-! SUPPORT. A family of laws with one lemma per constructor: the shape of a command's word (spec/30_encoding.md R100, R102). -/

namespace Sys2Proof.Laws.EncodingShape

/-- The command has no ill-formed spelling, its reserved field is zero, and its opcode field is the opcode of the table. -/
def Statement (i : Instr) : Prop := i.wf = true ∧ rsvOf (encode i) = 0 ∧ opcOf (encode i) = i.opc ∧ wordWf (encode i) = true

theorem nop : Statement .nop := by refine ⟨?_, ?_, ?_, ?_⟩ <;> decide
theorem config : Statement .config := by refine ⟨?_, ?_, ?_, ?_⟩ <;> decide
theorem encrypt : Statement .encrypt := by refine ⟨?_, ?_, ?_, ?_⟩ <;> decide
theorem decrypt : Statement .decrypt := by refine ⟨?_, ?_, ?_, ?_⟩ <;> decide
theorem pad : Statement .pad := by refine ⟨?_, ?_, ?_, ?_⟩ <;> decide
theorem unpad : Statement .unpad := by refine ⟨?_, ?_, ?_, ?_⟩ <;> decide
theorem cbcenc : Statement .cbcenc := by refine ⟨?_, ?_, ?_, ?_⟩ <;> decide
theorem cbcdec : Statement .cbcdec := by refine ⟨?_, ?_, ?_, ?_⟩ <;> decide
theorem clear : Statement .clear := by refine ⟨?_, ?_, ?_, ?_⟩ <;> decide

end Sys2Proof.Laws.EncodingShape
end

