-- ==== Sys2Proof/Laws/Encoding.lean ====
section
/-! SUPPORT. The fields of a command word as numbers, and the decoder on the bytes the bus carries (spec/30_encoding.md R100, spec/20_memory.md R75). -/

namespace Sys2Proof

theorem opcOf_eq (w : Word) : opcOf w = w.toNat % 256 := by simp [opcOf, BitVec.extractLsb'_toNat]

theorem rsvOf_eq (w : Word) : rsvOf w = w.toNat / 256 := by
  have := w.isLt
  simp [rsvOf, BitVec.extractLsb'_toNat, Nat.shiftRight_eq_div_pow]
  omega

/-- A word's four bytes put together again. -/
theorem wordOfBytes_bytes (w : Word) :
    wordOfBytes (w.extractLsb' 0 8) (w.extractLsb' 8 8) (w.extractLsb' 16 8) (w.extractLsb' 24 8) = w := by
  apply BitVec.eq_of_getLsbD_eq
  intro i hi
  simp only [wordOfBytes, BitVec.getLsbD_append, BitVec.getLsbD_extractLsb']
  split_ifs with h1 h2 h3
  · simp [h1]
  · have : i - 8 < 8 := by omega
    simp [this]; congr 1; omega
  · have : i - 8 - 8 < 8 := by omega
    simp [this]; congr 1; omega
  · have : i - 8 - 8 - 8 < 8 := by omega
    simp [this]; congr 1; omega

theorem decodeBytes_bytesOfWord (w : Word) : decodeBytes (bytesOfWord w) = (decode w).toOption := by
  simp only [bytesOfWord, decodeBytes, wordOfBytes_bytes]

@[simp] theorem tableWord_32 (w : Nat) : tableWord 32 w = BitVec.ofNat 32 w := by
  apply BitVec.eq_of_toNat_eq
  simp [tableWord]

end Sys2Proof
end

