-- ==== Sys2Proof/Laws/Exec.lean ====
section
/-! SUPPORT. One lemma per command that says once everything it can answer, and one for all of them: provers cite these and do not
unfold a meaning. -/

namespace Sys2Proof.Machine

/-! ### The words of the statements -/

theorem fits_iff (p : Params) (a n : Nat) : Fits p a n ↔ admitted p a n = true := (admitted_iff p a n).symm

theorem apart_iff (a m b n : Nat) : Apart a m b n ↔ overlaps a m b n = false := by
  rw [Apart, ← overlaps_iff]
  simp

/-- `MEM_SIZE` is at most 2^32 (R10). -/
theorem Params.memSize_le {p : Params} (h : p.wf = true) : p.memSize ≤ 2 ^ 32 := by
  simp only [Params.wf, Bool.and_eq_true, decide_eq_true_eq] at h
  exact h.1.2

/-- Why `OUT_LEN` holds every padded length (R41): an output of 2^32 bytes would cover all of memory and so the input too. -/
theorem outputLength_lt {p : Params} (hp : p.wf = true) {src l dst m : Nat} (h1 : Fits p src l) (h2 : Fits p dst m)
    (h3 : Apart src l dst m) (hm : m ≤ l + 16) (hl : l < m) : m < 2 ^ 32 := by
  have := Params.memSize_le hp
  unfold Fits Apart at *
  by_contra hc
  have hd : dst = 0 := by omega
  apply h3
  omega

/-- A raise, in the words of the statements (R210). -/
theorem raise_completes (s : State) (e : ErrCode) :
    CompletesWith (raise e s) e.byte 0 ∧ KeepsRegisters s (raise e s) ∧ (raise e s).slot = s.slot ∧
      KeepsMemory s (raise e s) :=
  ⟨⟨rfl, rfl, rfl, rfl⟩, ⟨rfl, rfl, rfl, rfl, rfl, rfl⟩, rfl, fun _ => rfl⟩

/-- The raise of an unpad, in the words of the statements (R152, R153, R200). -/
theorem raise_unpad_error {b : List Byte} {h : Bool} {e : ErrCode} (he : unpadBytes b h = .error e) (s : State) :
    EndsWithUnpadError (raise e s) e := by
  rcases unpadBytes_error he with ⟨_, rfl⟩ | ⟨_, rfl | rfl⟩
  · exact .inl ⟨rfl, (raise_completes s _).1⟩
  · exact .inr (.inr ⟨rfl, (raise_completes s _).1⟩)
  · exact .inr (.inl ⟨rfl, (raise_completes s _).1⟩)

/-- A finish, in the words of the statements (R211). -/
theorem finish_completes (s : State) {m : Nat} (h : m < 2 ^ 32) :
    CompletesWith (finish m s) 0x00 m ∧ KeepsRegisters s (finish m s) := by
  refine ⟨⟨rfl, ?_, rfl, rfl⟩, ⟨rfl, rfl, rfl, rfl, rfl, rfl⟩⟩
  simp only [finish_outLen, BitVec.toNat_ofNat]
  omega

/-! ### Each command -/

theorem execNop_eq (s : State) : exec .nop s = .next (finish 0 s) := rfl

theorem execClear_eq (s : State) : exec .clear s = .next (finish 0 (setSlot Slot.empty s)) := rfl

theorem execConfig_error {s : State} {e : ErrCode} (h : configCheck s = some e) : exec .config s = .next (raise e s) := by
  simp [exec, execConfig, h]

theorem execConfig_ok {s : State} (h : configCheck s = none) :
    exec .config s = .next (finish 0 (setSlot (constructed s) s)) := by
  simp [exec, execConfig, h]

theorem execPad_error {s : State} {e : ErrCode} (h : padCheck s = some e) : exec .pad s = .next (raise e s) := by
  simp [exec, execPad, h]

theorem execPad_ok {s : State} (h : padCheck s = none) :
    exec .pad s = .next (finish (s.latch.slenN + padcount s.latch.slenN)
      (storeBytes s.latch.dstN (padBytes (inputBytes s)) s)) := by
  simp [exec, execPad, h]

theorem execUnpad_error {s : State} {e : ErrCode} (h : unpadCheck s = some e) : exec .unpad s = .next (raise e s) := by
  simp [exec, execUnpad, h]

theorem execUnpad_ok {s : State} (h : unpadCheck s = none) :
    exec .unpad s = .next (finishUnpad (unpadBytes (inputBytes s) s.latch.harden) s) := by
  simp [exec, execUnpad, h]

theorem execEncrypt_error {s : State} {e : ErrCode} (h : encryptCheck s = some e) :
    exec .encrypt s = .next (raise e s) := by
  simp [exec, execEncrypt, h]

theorem execEncrypt_ok {s : State} (h : encryptCheck s = none) :
    exec .encrypt s = .next (finish (s.latch.slenN + padcount s.latch.slenN)
      (storeBytes s.latch.dstN (cbcEnc s.slot.keyBytes s.slot.iv (padBytes (inputBytes s))) s)) := by
  simp [exec, execEncrypt, h]

theorem execDecrypt_error {s : State} {e : ErrCode} (h : decryptCheck s = some e) :
    exec .decrypt s = .next (raise e s) := by
  simp [exec, execDecrypt, h]

theorem execDecrypt_ok {s : State} (h : decryptCheck s = none) :
    exec .decrypt s = .next (finishUnpad (unpadBytes (chainedPlaintext s) s.latch.harden)
      (storeBytes s.latch.dstN (chainedPlaintext s) s)) := by
  simp [exec, execDecrypt, h]

theorem execCbcenc_error {s : State} {e : ErrCode} (h : cbcencCheck s = some e) :
    exec .cbcenc s = .next (raise e s) := by
  simp [exec, execCbcenc, h]

theorem execCbcenc_ok {s : State} (h : cbcencCheck s = none) :
    exec .cbcenc s = .next (finish s.latch.slenN
      (storeBytes s.latch.dstN (cbcEnc s.slot.keyBytes s.slot.iv (inputBytes s)) s)) := by
  simp [exec, execCbcenc, h]

theorem execCbcdec_error {s : State} {e : ErrCode} (h : cbcdecCheck s = some e) :
    exec .cbcdec s = .next (raise e s) := by
  simp [exec, execCbcdec, h]

theorem execCbcdec_ok {s : State} (h : cbcdecCheck s = none) :
    exec .cbcdec s = .next (finish s.latch.slenN (storeBytes s.latch.dstN (chainedPlaintext s) s)) := by
  simp [exec, execCbcdec, h]

/-- What `finishUnpad` can do. -/
theorem finishUnpad_cases (r : Except ErrCode Nat) (s : State) :
    (∃ m, r = .ok m ∧ finishUnpad r s = finish m s) ∨ (∃ e, r = .error e ∧ finishUnpad r s = raise e s) := by
  cases r with
  | ok m => exact .inl ⟨m, rfl, rfl⟩
  | error e => exact .inr ⟨e, rfl, rfl⟩

@[simp] theorem finishUnpad_params (r : Except ErrCode Nat) (s : State) : (finishUnpad r s).params = s.params := by
  cases r <;> rfl
@[simp] theorem finishUnpad_ctrl (r : Except ErrCode Nat) (s : State) : (finishUnpad r s).ctrl = s.ctrl := by cases r <;> rfl
@[simp] theorem finishUnpad_regs (r : Except ErrCode Nat) (s : State) : (finishUnpad r s).regs = s.regs := by cases r <;> rfl
@[simp] theorem finishUnpad_slot (r : Except ErrCode Nat) (s : State) : (finishUnpad r s).slot = s.slot := by cases r <;> rfl
@[simp] theorem finishUnpad_latch (r : Except ErrCode Nat) (s : State) : (finishUnpad r s).latch = s.latch := by cases r <;> rfl
@[simp] theorem finishUnpad_mem (r : Except ErrCode Nat) (s : State) : (finishUnpad r s).mem = s.mem := by cases r <;> rfl
@[simp] theorem finishUnpad_env (r : Except ErrCode Nat) (s : State) : (finishUnpad r s).env = s.env := by cases r <;> rfl
@[simp] theorem finishUnpad_busy (r : Except ErrCode Nat) (s : State) : (finishUnpad r s).status.busy = false := by
  cases r <;> rfl
@[simp] theorem finishUnpad_done (r : Except ErrCode Nat) (s : State) : (finishUnpad r s).status.done = true := by
  cases r <;> rfl
@[simp] theorem finishUnpad_ovr (r : Except ErrCode Nat) (s : State) : (finishUnpad r s).status.ovr = s.status.ovr := by
  cases r <;> rfl

/-- The bytes a command writes once its checks have passed, from `L.dst` on (R90). -/
def writtenBytes (i : Instr) (s : State) : List Byte :=
  match i with
  | .nop => []
  | .config => []
  | .encrypt => cbcEnc s.slot.keyBytes s.slot.iv (padBytes (inputBytes s))
  | .decrypt => chainedPlaintext s
  | .pad => padBytes (inputBytes s)
  | .unpad => []
  | .cbcenc => cbcEnc s.slot.keyBytes s.slot.iv (inputBytes s)
  | .cbcdec => chainedPlaintext s
  | .clear => []

/-- The slot after a command whose checks have passed. -/
def nextSlot (i : Instr) (s : State) : Slot :=
  match i with
  | .nop => s.slot
  | .config => constructed s
  | .encrypt => s.slot
  | .decrypt => s.slot
  | .pad => s.slot
  | .unpad => s.slot
  | .cbcenc => s.slot
  | .cbcdec => s.slot
  | .clear => Slot.empty

/-- The code and the length a command whose checks have passed completes with. -/
def completionOf (i : Instr) (s : State) : Except ErrCode Nat :=
  match i with
  | .nop => .ok 0
  | .config => .ok 0
  | .encrypt => .ok (s.latch.slenN + padcount s.latch.slenN)
  | .decrypt => unpadBytes (chainedPlaintext s) s.latch.harden
  | .pad => .ok (s.latch.slenN + padcount s.latch.slenN)
  | .unpad => unpadBytes (inputBytes s) s.latch.harden
  | .cbcenc => .ok s.latch.slenN
  | .cbcdec => .ok s.latch.slenN
  | .clear => .ok 0

/-- Everything a command can answer: a failing check raises and does nothing else; passing checks write the output bytes and the
slot, and then complete. -/
theorem exec_eq (i : Instr) (s : State) :
    exec i s = .next (match dataPhaseCheck i s with
      | some e => raise e s
      | none => finishUnpad (completionOf i s)
          (setSlot (nextSlot i s) (storeBytes s.latch.dstN (writtenBytes i s) s))) := by
  cases i
  case nop => rfl
  case clear => rfl
  case config => simp only [exec, execConfig, dataPhaseCheck]; cases configCheck s <;> rfl
  case encrypt => simp only [exec, execEncrypt, dataPhaseCheck]; cases encryptCheck s <;> rfl
  case decrypt => simp only [exec, execDecrypt, dataPhaseCheck]; cases decryptCheck s <;> rfl
  case pad => simp only [exec, execPad, dataPhaseCheck]; cases padCheck s <;> rfl
  case unpad => simp only [exec, execUnpad, dataPhaseCheck]; cases unpadCheck s <;> rfl
  case cbcenc => simp only [exec, execCbcenc, dataPhaseCheck]; cases cbcencCheck s <;> rfl
  case cbcdec => simp only [exec, execCbcdec, dataPhaseCheck]; cases cbcdecCheck s <;> rfl

/-- What a command has answered, read backwards. -/
theorem exec_inv {i : Instr} {s t : State} (h : exec i s = .next t) :
    (∃ e, dataPhaseCheck i s = some e ∧ t = raise e s) ∨
    (dataPhaseCheck i s = none ∧
      t = finishUnpad (completionOf i s) (setSlot (nextSlot i s) (storeBytes s.latch.dstN (writtenBytes i s) s))) := by
  rw [exec_eq] at h
  injection h with h
  cases hc : dataPhaseCheck i s with
  | some e => simp only [hc] at h; exact .inl ⟨e, rfl, h.symm⟩
  | none => simp only [hc] at h; exact .inr ⟨rfl, h.symm⟩

/-- The two ways a command can end. -/
theorem exec_cases (i : Instr) (s : State) :
    (∃ e, dataPhaseCheck i s = some e ∧ exec i s = .next (raise e s)) ∨
    (dataPhaseCheck i s = none ∧ ∃ t, t = setSlot (nextSlot i s) (storeBytes s.latch.dstN (writtenBytes i s) s) ∧
      ((∃ m, completionOf i s = .ok m ∧ exec i s = .next (finish m t)) ∨
       (∃ e, completionOf i s = .error e ∧ exec i s = .next (raise e t)))) := by
  rw [exec_eq]
  cases h : dataPhaseCheck i s with
  | some e => exact .inl ⟨e, rfl, rfl⟩
  | none =>
    refine .inr ⟨rfl, _, rfl, ?_⟩
    cases hc : completionOf i s with
    | ok m => exact .inl ⟨m, rfl, rfl⟩
    | error e => exact .inr ⟨e, rfl, rfl⟩

/-- A data command's checks have passed only for whole blocks or a padded length, so it writes exactly its range of R90. -/
theorem length_writtenBytes {i : Instr} {s : State} (h : dataPhaseCheck i s = none) :
    ∀ r ∈ (tableFootprint i s.latch).writes, r.base = s.latch.dstN ∧ r.len = (writtenBytes i s).length := by
  have hp := padcount_whole s.latch.slenN
  cases i <;> simp only [tableFootprint, Footprint.empty, writtenBytes, List.not_mem_nil, false_implies, implies_true,
    List.mem_singleton, forall_eq]
  case encrypt => exact ⟨by trivial, by rw [length_cbcEnc _ _ _ (by simpa using hp)]; simp⟩
  case pad => exact ⟨by trivial, by simp⟩
  case decrypt =>
    have h16 : s.latch.slenN % 16 = 0 := by
      simp only [dataPhaseCheck, decryptCheck] at h
      by_contra hne
      simp [hne] at h
      split_ifs at h
    exact ⟨by trivial, by rw [chainedPlaintext, length_cbcDec _ _ _ (by simpa using h16)]; simp⟩
  case cbcenc =>
    have h16 : s.latch.slenN % 16 = 0 := by
      simp only [dataPhaseCheck, cbcencCheck] at h
      by_contra hne
      simp only [ne_eq, hne, not_false_eq_true, if_true] at h
      split_ifs at h
    exact ⟨by trivial, by rw [length_cbcEnc _ _ _ (by simpa using h16)]; simp⟩
  case cbcdec =>
    have h16 : s.latch.slenN % 16 = 0 := by
      simp only [dataPhaseCheck, cbcdecCheck] at h
      by_contra hne
      simp only [ne_eq, hne, not_false_eq_true, if_true] at h
      split_ifs at h
    exact ⟨by trivial, by rw [chainedPlaintext, length_cbcDec _ _ _ (by simpa using h16)]; simp⟩

/-- A command whose checks have passed writes as many bytes as its row of R90 says. -/
theorem length_writtenBytes_eq {i : Instr} {s : State} (h : dataPhaseCheck i s = none) :
    (writtenBytes i s).length = outRangeLen i s.latch := by
  have := length_writtenBytes h
  cases i <;> simp_all [tableFootprint, writtenBytes, outRangeLen, Footprint.empty, Latch.slenN, padcount]

theorem ErrCode.byte_ne_zero (e : ErrCode) : e.byte ≠ 0 := by cases e <;> decide

/-- A command that completes with `OK` has passed its checks and written what it writes. -/
theorem exec_ok_inv {i : Instr} {s t : State} (h : exec i s = .next t) (h0 : t.status.err = 0) :
    dataPhaseCheck i s = none ∧ ∃ m, completionOf i s = .ok m ∧
      t = finish m (setSlot (nextSlot i s) (storeBytes s.latch.dstN (writtenBytes i s) s)) := by
  rcases exec_cases i s with ⟨e, hc, he⟩ | ⟨hc, u, rfl, ⟨m, hm, he⟩ | ⟨e, hm, he⟩⟩
  · rw [he] at h; injection h with h; subst h; exact absurd h0 e.byte_ne_zero
  · rw [he] at h; injection h with h; exact ⟨hc, m, hm, h.symm⟩
  · rw [he] at h; injection h with h; subst h; exact absurd h0 e.byte_ne_zero

/-- For the five commands that read a buffer and write one, the checks after the earlier ones are the range check of R206. -/
theorem dataPhaseCheck_eq_rangeCheck (i : Instr) (s : State)
    (hi : i = .encrypt ∨ i = .decrypt ∨ i = .pad ∨ i = .cbcenc ∨ i = .cbcdec)
    (h1 : i ≠ .pad → s.slot.configured = true) (h2 : i ≠ .pad → i ≠ .encrypt → s.latch.slen.toNat % 16 = 0) :
    dataPhaseCheck i s =
      rangeCheck s.params s.latch.src.toNat s.latch.slen.toNat s.latch.dst.toNat (outRangeLen i s.latch) := by
  rcases hi with rfl | rfl | rfl | rfl | rfl <;>
    simp_all [dataPhaseCheck, encryptCheck, decryptCheck, cbcencCheck, cbcdecCheck, padCheck, Latch.slenN, Latch.srcN,
      Latch.dstN, outRangeLen, padcount]

/-- A command that writes a range has had it admitted (R73). -/
theorem writes_admitted {i : Instr} {s : State} (h : dataPhaseCheck i s = none) :
    ∀ r ∈ (tableFootprint i s.latch).writes, admitted s.params r.base r.len = true := by
  cases i <;> simp only [tableFootprint, Footprint.empty, List.not_mem_nil, false_implies, implies_true,
    List.mem_singleton, forall_eq] <;> simp only [dataPhaseCheck, encryptCheck, decryptCheck, padCheck, cbcencCheck,
    cbcdecCheck] at h
  case pad => exact ((rangeCheck_none_iff _ _ _ _ _).mp h).2.1
  all_goals
    split_ifs at h
    exact ((rangeCheck_none_iff _ _ _ _ _).mp h).2.1

end Sys2Proof.Machine
end

