-- ==== Sys2Proof/Laws/Step.lean ====
section
/-! SUPPORT. What one step can do, said once: the inversion lemmas of the step, the engine's step, a host access and a register
write. -/

namespace Sys2Proof.Machine

theorem popTurn_of_nil {s : State} (h : s.env.sched = []) : popTurn s = s := by
  obtain ⟨_, _, _, _, _, _, _, _, ⟨_, sched, _, _⟩, _⟩ := s
  simp only at h
  subst h
  rfl

/-- The engine's step (R130). -/
theorem perform_cases (s : State) :
    (∃ i, decode s.latch.word = .ok i ∧ perform s = exec i s) ∨
    ((∃ e, decode s.latch.word = .error e) ∧ perform s = .next (raise .illegalCommand s)) := by
  unfold perform
  cases h : decode s.latch.word with
  | ok i => exact .inl ⟨i, rfl, rfl⟩
  | error e => exact .inr ⟨⟨e, rfl⟩, rfl⟩

/-- One step, whoever moves. -/
theorem step_cases (s : State) :
    (ResetsTurn s ∧ step s = .next (platformReset (popTurn s))) ∨
    (EnginesTurn s ∧ s.status.busy = true ∧ step s = perform (popTurn s)) ∨
    (EnginesTurn s ∧ s.status.busy = false ∧ step s = .next (popTurn s)) ∨
    (HostsTurn s ∧ step s = hostMove (popTurn s)) := by
  cases hs : s.env.sched with
  | nil =>
    have hp := popTurn_of_nil hs
    cases hb : s.status.busy with
    | true =>
      refine .inr (.inl ⟨.inr ⟨hs, hb⟩, rfl, ?_⟩)
      simp [step, hs, freeTurn, hb, hp]
    | false =>
      refine .inr (.inr (.inr ⟨.inr ⟨hs, hb⟩, ?_⟩))
      simp [step, hs, freeTurn, hb, hp]
  | cons x xs =>
    cases x with
    | host => exact .inr (.inr (.inr ⟨.inl (by simp [hs]), by simp [step, hs, takeTurn]⟩))
    | reset => exact .inl ⟨by simp [ResetsTurn, hs], by simp [step, hs, takeTurn]⟩
    | engine =>
      cases hb : s.status.busy with
      | true =>
        refine .inr (.inl ⟨.inl (by simp [hs]), rfl, ?_⟩)
        simp [step, hs, takeTurn, engineTurn, hb]
      | false =>
        refine .inr (.inr (.inl ⟨.inl (by simp [hs]), rfl, ?_⟩))
        simp [step, hs, takeTurn, engineTurn, hb]

/-- A register write (R33, R34, R38, R41, R43, R45, R47; reserved offsets R31). -/
theorem writeOffset_cases (off : Nat) (v : Word) (s : State) :
    writeOffset off v s = s ∨ writeOffset off v s = writeCtrl v s ∨ writeOffset off v s = ackStatus v s ∨
    (s.status.busy = false ∧ regAt off = some .cmd ∧ writeOffset off v s = issue v s) ∨
    (s.status.busy = true ∧ regAt off = some .cmd ∧ writeOffset off v s = markOverrun s) ∨
    (∃ r, writeOffset off v s = setRegs r s) := by
  unfold writeOffset
  cases h : regAt off with
  | none => exact .inl rfl
  | some r =>
    cases r
    case id => exact .inl rfl
    case outLen => exact .inl rfl
    case ctrl => exact .inr (.inl rfl)
    case status => exact .inr (.inr (.inl rfl))
    case cmd =>
      cases hb : s.status.busy with
      | true => exact .inr (.inr (.inr (.inr (.inl ⟨rfl, rfl, by simp [writeReg, writeCmd, hb]⟩))))
      | false => exact .inr (.inr (.inr (.inl ⟨rfl, rfl, by simp [writeReg, writeCmd, hb]⟩)))
    all_goals exact .inr (.inr (.inr (.inr (.inr ⟨_, rfl⟩))))

/-- One host access that answers a next state. -/
theorem hostMove_cases {s t : State} (h : hostMove s = .next t) :
    (s.env.host = [] ∧ t = s) ∨
    (∃ addr off v, s.env.host.head? = some (.busWrite addr 32 v) ∧ busTarget s.params addr 32 = .offset off ∧
      t = writeOffset off v (popHost s)) ∨
    (∃ e, t = record e (popHost s)) ∨
    (∃ e, t = record e s) ∨
    (∃ a b, s.env.host.head? = some (.memWrite a b) ∧ a < s.params.memSize ∧ writeRaces (popHost s) a = false ∧
      t = storeBytes a [b] (popHost s)) := by
  unfold hostMove at h
  cases hh : s.env.host with
  | nil => simp only [hh] at h; exact .inl ⟨rfl, by simpa using h.symm⟩
  | cons op rest =>
    simp only [hh] at h
    cases op with
    | busWrite addr width v =>
      refine .inr (.inl ?_)
      simp only [busWrite] at h
      cases hb : busTarget (popHost s).params addr width with
      | offset off =>
        simp only [hb] at h
        have hw : width = 32 := by
          unfold busTarget at hb
          split_ifs at hb with h1 h2
          exact h2.1
        subst hw
        exact ⟨addr, off, v, rfl, hb, by simpa using h.symm⟩
      | error => simp only [hb, reduceCtorEq] at h
      | elsewhere => simp only [hb, reduceCtorEq] at h
    | busRead addr width =>
      refine .inr (.inr (.inl ?_))
      simp only [busRead] at h
      cases hb : busTarget (popHost s).params addr width with
      | offset off => simp only [hb] at h; exact ⟨_, by simpa using h.symm⟩
      | error => simp only [hb, reduceCtorEq] at h
      | elsewhere => simp only [hb, reduceCtorEq] at h
    | poll addr mask value =>
      simp only [pollOnce] at h
      cases hb : busTarget s.params addr 32 with
      | offset off =>
        simp only [hb] at h
        split_ifs at h
        · exact .inr (.inr (.inl ⟨_, by simpa using h.symm⟩))
        · exact .inr (.inr (.inr (.inl ⟨_, by simpa using h.symm⟩)))
      | error => simp only [hb, reduceCtorEq] at h
      | elsewhere => simp only [hb, reduceCtorEq] at h
    | memWrite a b =>
      refine .inr (.inr (.inr (.inr ?_)))
      simp only [hostStore] at h
      split_ifs at h with h1 h2
      exact ⟨a, b, rfl, by simpa using h1, by simpa using h2, by simpa using h.symm⟩
    | memRead a =>
      refine .inr (.inr (.inl ?_))
      simp only [hostLoad] at h
      split_ifs at h with h1 h2
      exact ⟨_, by simpa using h.symm⟩
    | irqSample => exact .inr (.inr (.inl ⟨_, by simpa using h.symm⟩))

/-- A run of one step more, forwards and backwards. -/
theorem run_next {s s' : State} (h : step s = .next s') (k : Nat) :
    Host.Core.run core (k + 1) s = Host.Core.run core k s' := by
  have hc : core.step s = .next s' := h
  simp only [Host.Core.run]
  rw [hc]

theorem run_next_inv {s t : State} {k : Nat} (h : Host.Core.run core (k + 1) s = .next t) :
    ∃ s', step s = .next s' ∧ Host.Core.run core k s' = .next t := by
  simp only [Host.Core.run] at h
  have hc : core.step s = step s := rfl
  rw [hc] at h
  cases hs : step s with
  | next s' => rw [hs] at h; exact ⟨s', rfl, h⟩
  | fault r => rw [hs] at h; cases h
  | refused r => rw [hs] at h; cases h

/-- An invariant that one step keeps holds along a whole run: the induction, packaged once. -/
theorem run_keeps {P : State → Prop} (hstep : ∀ s t, P s → step s = .next t → P t) {k : Nat} {s t : State}
    (hs : P s) (h : Host.Core.run core k s = .next t) : P t := by
  induction k generalizing s with
  | zero =>
    simp only [Host.Core.run] at h
    injection h with h
    exact h ▸ hs
  | succ k ih =>
    obtain ⟨u, h1, h⟩ := run_next_inv h
    exact ih (hstep s u hs h1) h

end Sys2Proof.Machine
end

