-- ==== Sys2Proof/Laws/Host.lean ====
section
/-! SUPPORT. Laws of the register window and of the host's turn: the two register words bit by bit, where an access goes, which bytes
race, and what a command's result depends on (spec/10_state.md, spec/20_memory.md R84, R90). -/

namespace Sys2Proof.Machine

/-! ### The status and control words (R34, R38) -/

theorem ksize_lt (c : Slot) : ksize c < 4 := by unfold ksize; split_ifs <;> omega

theorem statusWord_toNat (s : State) :
    (statusWord s).toNat = ksize s.slot * 2 ^ 16 + s.status.err.toNat * 2 ^ 8 + s.status.ovr.toNat * 8
      + s.slot.configured.toNat * 4 + s.status.done.toNat * 2 + s.status.busy.toNat := by
  have hk := ksize_lt s.slot
  have h1 := s.status.ovr.toNat_lt
  have h2 := s.slot.configured.toNat_lt
  have h3 := s.status.done.toNat_lt
  have h4 := s.status.busy.toNat_lt
  have h5 := s.status.err.isLt
  unfold statusWord
  rw [BitVec.toNat_ofNat, Nat.mod_eq_of_lt (by omega)]

/-- `STATUS` as its fields one after another. -/
theorem statusWord_eq (s : State) :
    statusWord s = 0#14 ++ BitVec.ofNat 2 (ksize s.slot) ++ s.status.err ++ 0#4 ++ BitVec.ofBool s.status.ovr
      ++ BitVec.ofBool s.slot.configured ++ BitVec.ofBool s.status.done ++ BitVec.ofBool s.status.busy := by
  have app {n m : Nat} (x : BitVec n) (y : BitVec m) : (x ++ y).toNat = x.toNat * 2 ^ m + y.toNat := by
    rw [BitVec.toNat_append, ← Nat.shiftLeft_add_eq_or_of_lt y.isLt, Nat.shiftLeft_eq]
  have hk := ksize_lt s.slot
  apply BitVec.eq_of_toNat_eq
  rw [statusWord_toNat]
  simp only [app, BitVec.toNat_ofBool, BitVec.toNat_ofNat]
  omega

/-- `STATUS` bit by bit. -/
theorem statusWord_getLsbD (s : State) (i : Nat) : (statusWord s).getLsbD i =
    if i = 0 then s.status.busy else if i = 1 then s.status.done else if i = 2 then s.slot.configured
    else if i = 3 then s.status.ovr else if i < 8 then false else if i < 16 then s.status.err.getLsbD (i - 8)
    else if i < 18 then (BitVec.ofNat 2 (ksize s.slot)).getLsbD (i - 16) else false := by
  rw [statusWord_eq]
  simp only [BitVec.getLsbD_append]
  rcases Nat.lt_or_ge i 32 with h | h
  · interval_cases i <;> simp
  · grind

/-- `CTRL` bit by bit. -/
theorem ctrlWord_getLsbD (c : Ctrl) (i : Nat) : (ctrlWord c).getLsbD i =
    if i = 0 then c.ie else if i = 1 then c.harden else if i = 2 then c.ctlenCheck else false := by
  have : ctrlWord c = 0#29 ++ BitVec.ofBool c.ctlenCheck ++ BitVec.ofBool c.harden ++ BitVec.ofBool c.ie := by
    rcases c with ⟨a, b, c⟩
    cases a <;> cases b <;> cases c <;> rfl
  rw [this]
  simp only [BitVec.getLsbD_append]
  rcases Nat.lt_or_ge i 32 with h | h
  · interval_cases i <;> simp
  · grind

/-! ### Where an access goes (R31, R32) -/

theorem regAt_offset (r : Reg) : regAt r.offset = some r := by cases r <;> rfl

/-- The model's offsets are those of the table of R31. -/
theorem offset_of_registerMap {off : Nat} {r : Reg} (h : (off, r) ∈ registerMap) : off = r.offset := by
  simp only [registerMap, List.cons_append, List.nil_append, List.mem_cons, Prod.mk.injEq, List.not_mem_nil, or_false] at h
  rcases h with h | h | h | h | h | h | h | h | h | h | h | h <;> rw [h.1, h.2] <;> rfl

theorem busTarget_window (p : Params) {off : Nat} (width : Nat) (h : off < 64) :
    busTarget p (p.regBase + off) width = if width = 32 ∧ off % 4 = 0 then .offset off else .error := by
  unfold busTarget Config.windowLen
  rw [if_pos (by omega), Nat.add_sub_cancel_left]

theorem busTarget_reg (p : Params) (r : Reg) : busTarget p (p.regBase + r.offset) 32 = .offset r.offset := by
  have h : r.offset < 64 ∧ r.offset % 4 = 0 := by cases r <;> decide
  rw [busTarget_window p 32 h.1, if_pos ⟨rfl, h.2⟩]

/-- An offset of the window that the table of R31 reserves holds no register. -/
theorem regAt_reserved {off : Nat} (h : off < 64) (h30 : 0x30 ≤ off) : regAt off = none := by
  interval_cases off <;> rfl

theorem readOffset_reserved {off : Nat} (h : off < 64) (h30 : 0x30 ≤ off) (s : State) :
    readOffset off s = 0 := by
  unfold readOffset
  rw [regAt_reserved h h30]

theorem writeOffset_reserved {off : Nat} (h : off < 64) (h30 : 0x30 ≤ off) (v : Word) (s : State) :
    writeOffset off v s = s := by
  unfold writeOffset
  rw [regAt_reserved h h30]

/-- What surrounds the block cannot be read in a register. -/
theorem readReg_env (r : Reg) (s : State) (e : Env) : readReg r { s with env := e } = readReg r s := by cases r <;> rfl

/-! ### The host's turn -/

theorem hostsTurn_step {s : State} (h : HostsTurn s) : step s = hostMove (popTurn s) := by
  rcases step_cases s with ⟨hr, _⟩ | ⟨he, hb, _⟩ | ⟨he, _, _⟩ | ⟨_, hs⟩
  · unfold ResetsTurn at hr
    rcases h with h | ⟨h, _⟩ <;> simp [h] at hr
  · rcases h with h | ⟨h, hb'⟩ <;> rcases he with he | ⟨he, hb''⟩ <;> simp_all
  · rcases h with h | ⟨h, hb'⟩ <;> rcases he with he | ⟨he, hb''⟩ <;> simp_all
  · exact hs

/-- An access and the turn it took, both off their lists. -/
theorem popHost_popTurn {s : State} {op : HostOp} {rest : List HostOp} (h : s.env.host = op :: rest) :
    popHost (popTurn s) = { s with env := { s.env with host := rest, sched := s.env.sched.tail } } := by
  simp only [popHost, popTurn, h, List.tail_cons]

theorem hostMove_sched {s t : State} (h : hostMove s = .next t) : t.env.sched = s.env.sched := by
  rcases hostMove_cases h with ⟨_, rfl⟩ | ⟨addr, off, v, hh, hbt, rfl⟩ | ⟨_, rfl⟩ | ⟨_, rfl⟩ | ⟨a, b, hh, ha, _, rfl⟩
  · rfl
  · rcases writeOffset_cases off v (popHost s) with h | h | h | ⟨_, hc, h⟩ | ⟨hb, hc, h⟩ | ⟨_, h⟩ <;> rw [h] <;> rfl
  all_goals rfl

/-- No host access ends a command in flight (R257). -/
theorem hostMove_busy {s t : State} (h : hostMove s = .next t) (hb : s.status.busy = true) : t.status.busy = true := by
  rcases hostMove_cases h with ⟨_, rfl⟩ | ⟨addr, off, v, _, _, rfl⟩ | ⟨_, rfl⟩ | ⟨_, rfl⟩ | ⟨a, b, _, _, _, rfl⟩
  · exact hb
  · rcases writeOffset_cases off v (popHost s) with h | h | h | ⟨_, hc, h⟩ | ⟨hb', hc, h⟩ | ⟨_, h⟩ <;> rw [h] <;> simp_all
  all_goals exact hb

/-- The engine's step leaves no command in flight. -/
theorem perform_idle {s t : State} (h : perform s = .next t) : t.status.busy = false := by
  rcases perform_cases s with ⟨i, _, hp⟩ | ⟨_, hp⟩ <;> rw [hp] at h
  · rw [exec_eq] at h
    injection h with h
    subst h
    cases dataPhaseCheck i s with
    | some e => rfl
    | none => simp only; cases completionOf i s <;> rfl
  · injection h with h
    subst h
    rfl

/-! ### What a command's checks and ranges depend on (R46, R90) -/

theorem dataPhaseCheck_congr (i : Instr) {s t : State} (hp : t.params = s.params) (hl : t.latch = s.latch)
    (hc : t.slot = s.slot) : dataPhaseCheck i t = dataPhaseCheck i s := by
  cases i <;>
    simp only [dataPhaseCheck, configCheck, encryptCheck, decryptCheck, padCheck, unpadCheck, cbcencCheck, cbcdecCheck,
      hp, hl, hc]

theorem footprint_congr {s t : State} (hp : t.params = s.params) (hl : t.latch = s.latch) (hc : t.slot = s.slot) :
    footprint t = footprint s := by
  unfold footprint instrFootprint
  rw [hl]
  cases decode s.latch.word with
  | error e => rfl
  | ok i => simp only [dataPhaseCheck_congr i hp hl hc]

@[simp] theorem footprint_popTurn (s : State) : footprint (popTurn s) = footprint s := footprint_congr rfl rfl rfl
@[simp] theorem footprint_popHost (s : State) : footprint (popHost s) = footprint s := footprint_congr rfl rfl rfl

/-- A command past its checks reads exactly the bytes of its row of R90. -/
theorem footprint_readsByte_iff {s : State} {i : Instr} (hd : decode s.latch.word = .ok i)
    (hc : dataPhaseCheck i s = none) (a : Nat) : (footprint s).readsByte a = true ↔ ReadsOf i s.latch a := by
  unfold footprint instrFootprint
  simp only [hd, hc]
  cases i <;>
    simp [tableFootprint, Footprint.readsByte, Footprint.empty, ReadsOf, Span.holds_iff, InRange, Latch.srcN,
      Latch.slenN, Latch.kaddrN, Latch.klenN, Latch.ivaddrN, Config.ivLen]

/-- A command past its checks writes exactly the bytes of its row of R90. -/
theorem footprint_writesByte_iff {s : State} {i : Instr} (hd : decode s.latch.word = .ok i)
    (hc : dataPhaseCheck i s = none) (a : Nat) : (footprint s).writesByte a = true ↔ WritesOf i s.latch a := by
  unfold footprint instrFootprint
  simp only [hd, hc]
  cases i <;>
    simp [tableFootprint, Footprint.writesByte, Footprint.empty, WritesOf, outRangeLen, Span.holds_iff, InRange,
      Latch.dstN, Latch.slenN, padcount]

end Sys2Proof.Machine
end

