-- ==== Sys2Proof/Laws/Reset.lean ====
section
/-! SUPPORT. Laws of the footprint of the command in flight and of the platform's reset (spec/20_memory.md R90, spec/70_reset_and_hazards.md R241). -/

namespace Sys2Proof.Machine

/-- A range the command in flight writes comes from its row of R90, its checks passed. -/
theorem mem_footprint_writes {s : State} {r : Span} (h : r ∈ (footprint s).writes) :
    ∃ i, decode s.latch.word = .ok i ∧ dataPhaseCheck i s = none ∧ r ∈ (tableFootprint i s.latch).writes := by
  unfold footprint at h
  cases hd : decode s.latch.word with
  | error e => simp [hd, Footprint.empty] at h
  | ok i =>
    simp only [hd, instrFootprint] at h
    cases hc : dataPhaseCheck i s with
    | some e => simp [hc, Footprint.empty] at h
    | none => simp only [hc] at h; exact ⟨i, rfl, hc, h⟩

/-- A range the command in flight reads comes from its row of R90, its checks passed. -/
theorem mem_footprint_reads {s : State} {r : Span} (h : r ∈ (footprint s).reads) :
    ∃ i, decode s.latch.word = .ok i ∧ dataPhaseCheck i s = none ∧ r ∈ (tableFootprint i s.latch).reads := by
  unfold footprint at h
  cases hd : decode s.latch.word with
  | error e => simp [hd, Footprint.empty] at h
  | ok i =>
    simp only [hd, instrFootprint] at h
    cases hc : dataPhaseCheck i s with
    | some e => simp [hc, Footprint.empty] at h
    | none => simp only [hc] at h; exact ⟨i, rfl, hc, h⟩

@[simp] theorem length_freeBytes (d n : Nat) : (freeBytes d n).length = n := by
  induction n generalizing d with
  | zero => rfl
  | succ n ih => simp [freeBytes, ih]

/-- Byte `i` of a draw is the free byte of its own number. -/
theorem getElem_freeBytes (d n i : Nat) (h : i < (freeBytes d n).length) : (freeBytes d n)[i] = Config.freeByte (d + i) := by
  induction n generalizing d i with
  | zero => simp [freeBytes] at h
  | succ n ih =>
    cases i with
    | zero => rfl
    | succ i =>
      simp only [freeBytes, List.getElem_cons_succ]
      rw [ih, Nat.add_right_comm, Nat.add_assoc]

/-- What scrambling a list of ranges keeps. -/
theorem foldl_scrambleSpan_keeps (rs : List Span) (s : State) :
    (rs.foldl (fun t r => scrambleSpan r t) s).params = s.params ∧
    (rs.foldl (fun t r => scrambleSpan r t) s).faultSeen = s.faultSeen ∧
    (rs.foldl (fun t r => scrambleSpan r t) s).env.host = s.env.host ∧
    (rs.foldl (fun t r => scrambleSpan r t) s).env.sched = s.env.sched ∧
    (rs.foldl (fun t r => scrambleSpan r t) s).env.trace = s.env.trace := by
  induction rs generalizing s with
  | nil => simp
  | cons r rs ih =>
    obtain ⟨h1, h2, h3, h4, h5⟩ := ih (scrambleSpan r s)
    exact ⟨h1, h2, h3, h4, h5⟩

theorem foldl_scrambleSpan_byte (rs : List Span) (s : State) {a : Nat}
    (h : ∀ r ∈ rs, ¬(r.base ≤ a ∧ a < r.base + r.len)) :
    (rs.foldl (fun t r => scrambleSpan r t) s).mem.byte a = s.mem.byte a := by
  induction rs generalizing s with
  | nil => rfl
  | cons r rs ih =>
    simp only [List.foldl_cons]
    rw [ih _ (fun r' hr' => h r' (by simp [hr'])), scrambleSpan_mem, Memory.byte_writeBytes_other]
    simpa using h r (by simp)

/-- Scrambling ranges inside data memory keeps the canonical form and the bound. -/
theorem foldl_scrambleSpan_memOk (rs : List Span) (s : State) (hs : MemOk s)
    (h : ∀ r ∈ rs, admitted s.params r.base r.len = true) : MemOk (rs.foldl (fun t r => scrambleSpan r t) s) := by
  induction rs generalizing s with
  | nil => exact hs
  | cons r rs ih =>
    simp only [List.foldl_cons]
    refine ih _ ⟨by simpa using Memory.wf_writeBytes hs.1 _ _, fun c hc => ?_⟩ (fun r' hr' => by simpa using h r' (by simp [hr']))
    rw [scrambleSpan_params]
    rcases Memory.mem_writeBytes (by simpa using hc) with hc | ⟨h1, h2⟩
    · exact hs.2 c hc
    · have := (admitted_iff _ _ _).mp (h r (by simp))
      simp only [length_freeBytes] at h2
      omega

@[simp] theorem scramble_params (s : State) : (scramble s).params = s.params := by
  unfold scramble; split
  · exact (foldl_scrambleSpan_keeps _ _).1
  · rfl

@[simp] theorem scramble_faultSeen (s : State) : (scramble s).faultSeen = s.faultSeen := by
  unfold scramble; split
  · exact (foldl_scrambleSpan_keeps _ _).2.1
  · rfl

@[simp] theorem platformReset_params (s : State) : (platformReset s).params = s.params := by simp [platformReset]
@[simp] theorem platformReset_ctrl (s : State) : (platformReset s).ctrl = Ctrl.reset := by simp [platformReset]
@[simp] theorem platformReset_status (s : State) : (platformReset s).status = Status.reset := by simp [platformReset]
@[simp] theorem platformReset_outLen (s : State) : (platformReset s).outLen = 0 := by simp [platformReset]
@[simp] theorem platformReset_regs (s : State) : (platformReset s).regs = ParamRegs.reset := by simp [platformReset]
@[simp] theorem platformReset_slot (s : State) : (platformReset s).slot = Slot.empty := by simp [platformReset]
@[simp] theorem platformReset_latch (s : State) : (platformReset s).latch = Latch.reset := by simp [platformReset]
@[simp] theorem platformReset_mem (s : State) : (platformReset s).mem = (scramble s).mem := by simp [platformReset]

end Sys2Proof.Machine
end

