-- ==== Sys2Proof/Tests/Slice0.lean ====
section
/-! SUPPORT. Tests: the refusals of well-formedness, the decoder on words written out from spec/30_encoding.md, single steps with the results of
spec/95_test_vectors.md (the vector is named in each comment), and a witness for the hypotheses of every statement. -/

namespace Sys2Proof.Tests

open Sys2Proof.Machine

/-! ### Helpers -/

/-- The outcome is a next state with this property. -/
def nextIs (o : Host.Outcome State Fault Refusal) (p : State → Bool) : Bool :=
  match o with
  | .next t => p t
  | .fault _ => false
  | .refused _ => false

/-- The outcome is this fault. -/
def faultIs (o : Host.Outcome State Fault Refusal) (f : Fault) : Bool :=
  match o with
  | .next _ => false
  | .fault g => g == f
  | .refused _ => false

/-- A command in flight: the word, the buffers, and the two latched control bits. -/
def flight (w src slen dst : Word) (harden ctlen : Bool) (s : State) : State :=
  { s with
    latch :=
      { word := w, src := src, slen := slen, dst := dst, kaddr := 0, klen := 0, ivaddr := 0, ivlen := 0
        harden := harden, ctlen := ctlen }
    status := { busy := true, done := false, ovr := false, err := 0 } }

/-- A CONFIG in flight. -/
def configFlight (kaddr klen ivaddr ivlen : Word) (s : State) : State :=
  { s with
    latch :=
      { word := 1, src := 0, slen := 0, dst := 0, kaddr := kaddr, klen := klen, ivaddr := ivaddr, ivlen := ivlen
        harden := false, ctlen := false }
    status := { busy := true, done := false, ovr := false, err := 0 } }

/-- Bytes placed in data memory. -/
def mem (a : Nat) (v : List Byte) (s : State) : State := { s with mem := s.mem.writeBytes a v }

/-- The host's accesses and the schedule. -/
def env (host : List HostOp) (sched : List Turn) (s : State) : State :=
  { s with env := { s.env with host := host, sched := sched } }

/-- K8 of spec/95_test_vectors.md section 1. -/
def k8 : List Byte :=
  [0x12, 0x34, 0x56, 0x78, 0x90, 0x12, 0x34, 0x56, 0x78, 0x90, 0x12, 0x34, 0x56, 0x78, 0x90, 0x12] ++
  [0x34, 0x56, 0x78, 0x90, 0x12, 0x34, 0x56, 0x78, 0x90, 0x12, 0x34, 0x56, 0x78, 0x90, 0x12, 0x34]

/-- IV8 of spec/95_test_vectors.md section 1. -/
def iv8 : List Byte :=
  [0x12, 0x34, 0x56, 0x78, 0x90, 0xab, 0xcd, 0xef, 0x12, 0x34, 0x56, 0x78, 0x90, 0xab, 0xcd, 0xef]

/-- The bytes `00 01 02 ...`. -/
def upTo (n : Nat) : List Byte := (List.range n).map (BitVec.ofNat 8)

/-- The machine with K8 and IV8 held. -/
def held (s : State) : State :=
  { s with slot := { configured := true, klen := 32, key := ⟨k8, by decide⟩, iv := ⟨iv8, by decide⟩ } }

/-- `STATUS` reads this word. -/
def statusIs (w : Word) (t : State) : Bool := readReg .status t == w

/-- `OUT_LEN` reads this number. -/
def lenIs (m : Nat) (t : State) : Bool := t.outLen.toNat == m

/-- Data memory holds these bytes from an address on. -/
def holds (a : Nat) (v : List Byte) (t : State) : Bool := t.mem.readBytes a v.length == v

/-! ### Well-formedness refuses -/

/-- R100, R106: a reserved bit set (W-4, W-5). -/
theorem test_wf_refuses_reserved_bit :
    rsvIsZero 0x00000102 = false ∧ rsvIsZero 0x80000000 = false ∧ wordWf 0x00000102 = false := by decide

/-- R107: an opcode above 0x08 (W-2, W-3). -/
theorem test_wf_refuses_reserved_opcode :
    opcIsAssigned 0x00000009 = false ∧ opcIsAssigned 0x000000FF = false ∧ wordWf 0x00000009 = false := by decide

/-- R10: no memory, too much memory, a base that is not 64-byte aligned. -/
theorem test_wf_refuses_params :
    Params.wf { memSize := 0, regBase := 0 } = false ∧ Params.wf { memSize := 0x100000001, regBase := 0 } = false ∧
    Params.wf { memSize := 0x1000, regBase := 0x20 } = false ∧ Params.wf { memSize := 1, regBase := 0x40 } = true := by
  decide

/-- R72: a `.mem` directive past the end of data memory. -/
theorem test_wf_refuses_mem_line :
    Line.wf Params.reset (.mem 0xFFF [1, 2]) = false ∧ Line.wf Params.reset (.mem 0xFFE [1, 2]) = true := by decide

/-- Every command is well formed (R100), and so is every word the encoder writes. -/
theorem test_wf_accepts_every_command : ∀ i ∈ Instr.all, i.wf = true ∧ wordWf (encode i) = true := by decide

/-! ### Decoding (R100 to R107) -/

theorem test_decode_nop : decode 0b000000000000000000000000_00000000 = .ok .nop := by decide
theorem test_decode_config : decode 0b000000000000000000000000_00000001 = .ok .config := by decide
theorem test_decode_encrypt : decode 0b000000000000000000000000_00000010 = .ok .encrypt := by decide
theorem test_decode_decrypt : decode 0b000000000000000000000000_00000011 = .ok .decrypt := by decide
theorem test_decode_pad : decode 0b000000000000000000000000_00000100 = .ok .pad := by decide
theorem test_decode_unpad : decode 0b000000000000000000000000_00000101 = .ok .unpad := by decide
theorem test_decode_cbcenc : decode 0b000000000000000000000000_00000110 = .ok .cbcenc := by decide
theorem test_decode_cbcdec : decode 0b000000000000000000000000_00000111 = .ok .cbcdec := by decide
theorem test_decode_clear : decode 0b000000000000000000000000_00001000 = .ok .clear := by decide

/-- W-2 to W-5. -/
theorem test_decode_rejects :
    decode 0x00000009 = .error .reservedOpcode ∧ decode 0x000000FF = .error .reservedOpcode ∧
    decode 0x00000102 = .error .reservedBitsSet ∧ decode 0x80000000 = .error .reservedBitsSet := by decide

/-- R75, R101: four bytes, the lowest address first; no other length is a command. -/
theorem test_decode_bytes :
    decodeBytes [0x03, 0x00, 0x00, 0x00] = some .decrypt ∧ decodeBytes [0x00, 0x00, 0x00, 0x03] = none ∧
    decodeBytes [0x03] = none ∧ decodeBytes [] = none := by decide

theorem test_decode_table_word : decodeTableWord 32 0x08 = some .clear ∧ decodeTableWord 32 0x109 = none := by decide

/-- R-15: `STATUS` 0x0003_0006 as the bus carries it. -/
theorem test_window_bytes :
    (List.range 4).map (fun k => windowByte 0x08 k (finish 0 (held State.reset))) = [0x06, 0x00, 0x03, 0x00] := by decide

/-- A placed word runs as the first command after reset: PAD of nothing writes 16 bytes at address 0 (PD-1). -/
theorem test_placed_word_runs :
    nextIs (step (State.reset.withFetchWord 32 4)) (fun t => statusIs 0x00000002 t && lenIs 16 t &&
      holds 0 (List.replicate 16 0x10) t) = true := by decide

/-! ### NOP, CONFIG, CLEAR (section 4) -/

/-- R-10, second half. -/
theorem test_nop : nextIs (exec .nop (flight 0 0 0 0 false false State.reset)) (fun t =>
    statusIs 0x00000002 t && lenIs 0 t) = true := by decide

/-- Table 4.1 at length 24, and the key filled up with zero bytes (R50). -/
theorem test_config_24 :
    nextIs (exec .config (configFlight 0x100 24 0x200 16 (mem 0x100 (upTo 40) (mem 0x200 (upTo 16) State.reset))))
      (fun t => statusIs 0x00020006 t && t.slot.key.val == upTo 24 ++ List.replicate 8 0 && t.slot.iv.val == upTo 16) = true := by
  decide

/-- C-7: a CONFIG that fails keeps the object. -/
theorem test_config_failure :
    nextIs (exec .config (configFlight 0x100 20 0x200 16 (held State.reset)))
      (fun t => statusIs 0x00030106 t && t.slot == (held State.reset).slot) = true := by decide

/-- C-9. -/
theorem test_clear : nextIs (exec .clear (flight 8 0 0 0 false false (held State.reset))) (fun t =>
    statusIs 0x00000002 t && t.slot == Slot.empty) = true := by decide

/-! ### PAD and UNPAD (section 5) -/

/-- PD-2. -/
theorem test_pad : nextIs (exec .pad (flight 4 0x300 3 0x400 false false (mem 0x300 [0x61, 0x61, 0x61] State.reset)))
    (fun t => lenIs 16 t && holds 0x400 ([0x61, 0x61, 0x61] ++ List.replicate 13 0x0d) t) = true := by decide

/-- PD-6. -/
theorem test_pad_overlap :
    nextIs (exec .pad (flight 4 0x300 3 0x302 false false (mem 0x300 [0x61, 0x61, 0x61] State.reset)))
      (fun t => statusIs 0x00001302 t && holds 0x300 [0x61, 0x61, 0x61, 0] t) = true := by decide

/-- UP-8: F keeps 14 bytes, H raises. -/
theorem test_unpad_variants :
    nextIs (exec .unpad (flight 5 0x500 16 0 false false (mem 0x500 (List.replicate 14 0x61 ++ [3, 2]) State.reset)))
      (fun t => statusIs 0x00000002 t && lenIs 14 t) = true ∧
    nextIs (exec .unpad (flight 5 0x500 16 0 true false (mem 0x500 (List.replicate 14 0x61 ++ [3, 2]) State.reset)))
      (fun t => statusIs 0x00000502 t && lenIs 0 t) = true := by decide

/-- UP-14: a pad count of 17 in 32 bytes; and UP-12 under F, which is recorded as a fault of the run (R203). -/
theorem test_unpad_bounds :
    nextIs (exec .unpad (flight 5 0x500 32 0 false false (mem 0x500 (List.replicate 31 0x61 ++ [0x11]) State.reset)))
      (fun t => lenIs 15 t && !t.faultSeen) = true ∧
    nextIs (exec .unpad (flight 5 0x500 15 0 false false (mem 0x500 (List.replicate 15 0x10) State.reset)))
      (fun t => statusIs 0x00002002 t && t.faultSeen) = true := by decide

/-! ### ENCRYPT, DECRYPT, CBCENC, CBCDEC (sections 6 and 7.1) -/

/-- X-2, and P2's source past the end of memory. -/
theorem test_encrypt_checks :
    nextIs (exec .encrypt (flight 2 0xFFF 16 0 false false State.reset)) (statusIs 0x00001002) = true ∧
    nextIs (exec .encrypt (flight 2 0xFF8 16 0x400 false false (held State.reset))) (statusIs 0x00031206) = true := by
  decide

/-- E1's length: an empty input gives one block. -/
theorem test_encrypt_length (t : State) (h : exec .encrypt (flight 2 0x300 0 0x400 false false (held State.reset)) = .next t) :
    t.outLen = 16 := by
  rw [execEncrypt_ok (by decide)] at h
  injection h with h
  rw [← h]
  decide

/-- X-4, and the same with `CTLEN_CHECK` 0 (R182). -/
theorem test_decrypt_partial_block :
    nextIs (exec .decrypt (flight 3 0xFFF 15 0 false true (held State.reset))) (statusIs 0x00030406) = true ∧
    nextIs (exec .decrypt (flight 3 0xFFF 15 0 false false (held State.reset))) (statusIs 0x00032206) = true := by decide

/-- R182 at length 0: nothing is written, and the unpad of nothing raises by variant. -/
theorem test_decrypt_empty :
    nextIs (exec .decrypt (flight 3 0x300 0 0x400 false false (held State.reset))) (statusIs 0x00032106) = true ∧
    nextIs (exec .decrypt (flight 3 0x300 0 0x400 true false (held State.reset))) (statusIs 0x00030506) = true := by decide

/-- B-3 and B-4. -/
theorem test_cbcenc_lengths :
    nextIs (exec .cbcenc (flight 6 0x300 0 0x400 false false (held State.reset)))
      (fun t => statusIs 0x00030006 t && lenIs 0 t) = true ∧
    nextIs (exec .cbcenc (flight 6 0x300 15 0x400 false false (held State.reset))) (statusIs 0x00030406) = true := by decide

/-- B-5, and overlapping ranges before the data phase. -/
theorem test_cbcdec_checks :
    nextIs (exec .cbcdec (flight 7 0x300 17 0x400 false false (held State.reset))) (statusIs 0x00030406) = true ∧
    nextIs (exec .cbcdec (flight 7 0x300 32 0x31F false false (held State.reset))) (statusIs 0x00031306) = true := by decide

/-! ### Registers, host and reset (sections 2, 3, 7) -/

/-- R-4, R-6, R-7. -/
theorem test_register_writes :
    readReg .ctrl (writeReg .ctrl 0xFFFFFFFF State.reset) = 0x00000007 ∧
    readReg .srcLen (writeReg .srcLen 0xDEADBEEF State.reset) = 0xDEADBEEF ∧
    readReg .outLen (writeReg .outLen 0 { State.reset with outLen := 16 }) = 16 := by decide

/-- `STATUS` = 0x0003_000E. -/
def overrun : State := { held State.reset with status := { busy := false, done := true, ovr := true, err := 0 } }

/-- R-8, R-9. -/
theorem test_status_write :
    statusIs 0x0003000E overrun = true ∧ statusIs 0x0003000C (writeReg .status 0x2 overrun) = true ∧
    statusIs 0x00030004 (writeReg .status 0xFFFFFFFF overrun) = true := by decide

/-- R-10 at issue, and R-11. -/
theorem test_cmd_write :
    statusIs 0x00000001 (writeReg .cmd 0 (raise .notConfigured State.reset)) = true ∧
    (writeReg .cmd 3 (flight 2 1 2 3 false false State.reset)).status.ovr = true ∧
    (writeReg .cmd 3 (flight 2 1 2 3 false false State.reset)).latch.word = 2 := by decide

/-- R-14, and a reserved offset (R-3). -/
theorem test_bus_access :
    faultIs (step (env [.busWrite 0x10 8 1] [] State.reset)) .hostBusError = true ∧
    faultIs (step (env [.busRead 0x02 32] [] State.reset)) .hostBusError = true ∧
    nextIs (step (env [.busRead 0x3C 32] [] State.reset)) (fun t => t.env.trace == [.reg 0x3C 0]) = true := by decide

/-- W-6. -/
theorem test_illegal_word :
    nextIs (perform (flight 0x102 0 0 0 false false State.reset)) (statusIs 0x00001102) = true := by decide

/-- A host write of a byte in flight, at the first byte written and the byte after the last (R84). -/
theorem test_host_race :
    faultIs (step (env [.memWrite 0x400 1] [.host] (flight 4 0x300 3 0x400 false false State.reset))) .hostRace = true ∧
    nextIs (step (env [.memWrite 0x410 1] [.host] (flight 4 0x300 3 0x400 false false State.reset)))
      (holds 0x410 [1]) = true := by decide

/-- A host read of the first and the last byte that a command in flight only reads is no breach of R84. -/
theorem test_host_reads_input :
    ∀ a ∈ [0x300, 0x302],
      nextIs (step (env [.memRead a] [.host] (flight 4 0x300 3 0x400 false false (mem 0x300 [0x61, 0x61, 0x61] State.reset))))
        (fun t => t.env.trace == [.mem a 0x61]) = true := by decide

/-- A `poll` that is not satisfied comes again; one that is satisfied is done (R108). -/
theorem test_poll :
    nextIs (step (env [.poll 0x08 1 0] [.host] (flight 0 0 0 0 false false State.reset)))
      (fun t => t.env.host == [.poll 0x08 1 0] && t.env.trace == [.reg 0x08 1]) = true ∧
    nextIs (step (env [.poll 0x08 1 0] [] State.reset)) (fun t => t.env.host == []) = true := by decide

/-- I-1 to I-4. -/
theorem test_irq :
    irq overrun = false ∧ irq (writeReg .ctrl 1 overrun) = true ∧ irq (writeReg .ctrl 1 State.reset) = false ∧
    irq State.reset = false := by decide

/-- Z-1. -/
theorem test_reset :
    nextIs (step (env [] [.reset] overrun)) (fun t => statusIs 0 t && t.slot == Slot.empty) = true := by decide

/-- R109: the accesses of `encrypt` and of `ctrl 0, 1, 1` (P6's encoding). -/
theorem test_expand :
    Line.expand Params.reset (.encrypt 0x300 1 0x400) =
      [.busWrite 0x10 32 0x300, .busWrite 0x14 32 1, .busWrite 0x18 32 0x400, .busWrite 0x0C 32 2] ∧
    Line.expand Params.reset (.ctrl false true true) = [.busWrite 0x04 32 6] := by decide

/-! ### Witnesses: a state and operands that meet the hypotheses of each statement, one for each clause -/

/-- 16 bytes of input at 0x300. -/
def input16 : State := mem 0x300 (List.replicate 16 0x61) (held State.reset)

theorem input16_wf : Memory.wf input16.mem := Memory.wf_writeBytes (by decide) _ _

/-- Bytes that were stored are read back. -/
theorem inputBytes_stored {m : Memory} (hm : m.wf) {a n : Nat} {v : List Byte} (h : v.length = n) :
    (m.writeBytes a v).readBytes a n = v := by
  apply List.ext_getElem
  · simp [h]
  · intro i h1 h2
    rw [Memory.getElem_readBytes, Memory.byte_writeBytes_same hm]

/-- One padded byte through the chaining and back. -/
theorem chained_byte (key : List Byte) (iv : Block) : cbcDec key iv (cbcEnc key iv (padBytes [0x61])) = padBytes [0x61] := by
  have hl : (padBytes [0x61]).length = 16 := by decide
  have e : cbcEnc key iv (padBytes [0x61]) = joinBlocks [Config.aesEnc key (xorBytes (fit 16 (padBytes [0x61])) iv)] := by
    simp only [cbcEnc, hl]; rfl
  rw [e, cbcDec, length_joinBlocks]
  have hs := splitBlocks_joinBlocks [Config.aesEnc key (xorBytes (fit 16 (padBytes [0x61])) iv)]
  simp only [List.length_singleton] at hs ⊢
  rw [show 16 * 1 / 16 = 1 from rfl, hs]
  simp only [cbcDecLoop, aesDec_aesEnc, xorBytes_cancel, joinBlocks]
  decide

/-- O3: reserved bits at their lowest and highest place, the first reserved opcode, and the last legal word. -/
theorem witness_IllegalWordRaisesIllegalCommand :
    (∀ w ∈ [(0x100 : Word), 0x80000000], (flight w 0 0 0 false false State.reset).latch.word.toNat / 256 ≠ 0) ∧
    (flight 9 0 0 0 false false State.reset).latch.word.toNat % 256 > 8 ∧
    (flight 8 0 0 0 false false State.reset).latch.word.toNat / 256 = 0 ∧
    (flight 8 0 0 0 false false State.reset).latch.word.toNat % 256 ≤ 8 :=
  ⟨by simp [flight], by decide, by decide, by decide⟩

/-- O4: by a turn of the schedule, and by a free turn. -/
theorem witness_StepPerformsDecodedCommand :
    ∀ s ∈ [env [] [.engine] (flight 3 0 0 0 false false State.reset), env [] [] (flight 3 0 0 0 false false State.reset)],
      EnginesTurn s ∧ s.status.busy = true ∧ decode s.latch.word = .ok .decrypt := by
  unfold EnginesTurn; decide

theorem witness_PlacedWordRunsNext : decodeTableWord 32 5 = some .unpad := by decide

/-- O7: the conditions of its two `STATUS` clauses. -/
theorem witness_NopAndClearComplete :
    State.reset.slot.configured = false ∧ State.reset.status.ovr = false ∧ (held State.reset).status.ovr = false := by decide

/-- O8: each key length, with the key at the very end of data memory (C-4). -/
theorem witness_ConfigConstructs :
    ∀ s ∈ [configFlight 0xFF0 16 0x200 16 State.reset, configFlight 0xFE8 24 0x200 16 State.reset,
           configFlight 0xFE0 32 0xFF0 16 State.reset],
      (s.latch.klen.toNat = 16 ∨ s.latch.klen.toNat = 24 ∨ s.latch.klen.toNat = 32) ∧ s.latch.ivlen.toNat = 16 ∧
      Fits s.params s.latch.kaddr.toNat s.latch.klen.toNat ∧ Fits s.params s.latch.ivaddr.toNat 16 := by
  unfold Fits; decide

/-- O9: a bad key length, a bad IV length, a key and an IV one byte past the end (C-1, C-3, C-5). -/
theorem witness_ConfigFailureKeepsSlot :
    ∀ s ∈ [configFlight 0x100 34 0x200 16 State.reset, configFlight 0x100 16 0x200 15 State.reset,
           configFlight 0xFF1 16 0x200 16 State.reset, configFlight 0x100 16 0xFF1 16 State.reset],
      ¬((s.latch.klen.toNat = 16 ∨ s.latch.klen.toNat = 24 ∨ s.latch.klen.toNat = 32) ∧ s.latch.ivlen.toNat = 16 ∧
        Fits s.params s.latch.kaddr.toNat s.latch.klen.toNat ∧ Fits s.params s.latch.ivaddr.toNat 16) := by
  unfold Fits; decide

/-- O10: adjacent ranges (PD-7), an empty input in place (PD-8), the last address (PD-10). -/
theorem witness_PadAppendsPadCount :
    ∀ s ∈ [flight 4 0x300 3 0x303 false false input16, flight 4 0x300 0 0x300 false false input16,
           flight 4 0x300 3 0xFF0 false false input16],
      ∃ l n : Nat, l = s.latch.slen.toNat ∧ n = 16 - l % 16 ∧ s.params.wf = true ∧ Memory.wf s.mem ∧
        Fits s.params s.latch.src.toNat l ∧ Fits s.params s.latch.dst.toNat (l + n) ∧
        Apart s.latch.src.toNat l s.latch.dst.toNat (l + n) := by
  have h : ∀ s ∈ [flight 4 0x300 3 0x303 false false input16, flight 4 0x300 0 0x300 false false input16,
           flight 4 0x300 3 0xFF0 false false input16],
      s.params.wf = true ∧ Memory.wf s.mem ∧ Fits s.params s.latch.src.toNat s.latch.slen.toNat ∧
        Fits s.params s.latch.dst.toNat (s.latch.slen.toNat + (16 - s.latch.slen.toNat % 16)) ∧
        Apart s.latch.src.toNat s.latch.slen.toNat s.latch.dst.toNat
          (s.latch.slen.toNat + (16 - s.latch.slen.toNat % 16)) := by
    unfold Fits Apart; decide
  exact fun s hs => ⟨_, _, rfl, rfl, h s hs⟩

/-- O12: the second clause's condition holds for the empty input; the first clause has both sides true for `01`. -/
theorem witness_UnpadHardenedRule : (∀ m, unpadBytes [] true ≠ .ok m) ∧ unpadBytes [0x01] true = .ok 0 :=
  ⟨fun _ h => (by cases h), by decide⟩

/-- O13: an admitted input of each outcome, and an input one byte past the end. -/
theorem witness_UnpadReportsLength :
    Fits input16.params 0x300 16 ∧ ¬Fits input16.params 0xFF1 16 ∧
    unpadBytes [0x61, 0x61, 0x01] false = .ok 2 ∧ unpadBytes [0x02] false = .error .faultUnpadBounds ∧
    unpadBytes [0x02] true = .error .invalidPadding := by
  unfold Fits; decide

/-- O14, third clause: both sides true, and both false with the fidelity variant answering all the same (UP-8). -/
theorem witness_PadThenUnpadIsIdentity :
    unpadBytes (List.replicate 16 0x10) true = .ok 0 ∧
    unpadBytes (List.replicate 14 0x61 ++ [3, 2]) false = .ok 14 ∧
    unpadBytes (List.replicate 14 0x61 ++ [3, 2]) true = .error .invalidPadding := by decide

/-- O15, O16 and O18: two whole blocks. -/
theorem witness_ChainsBlocks : (List.replicate 32 (0x61 : Byte)).length = 16 * 2 ∧ 0 < 2 ∧ 1 < 2 ∧
    (List.replicate 32 (0x61 : Byte)).length % 16 = 0 := by decide

/-- O17: a sequence of three blocks and one of two that agree on blocks 0 and 1; at block 1 the IVs of decryption may differ too. -/
theorem witness_ChainingIsLocal :
    let x : List Byte := List.replicate 48 0x61
    let y : List Byte := List.replicate 32 0x61
    x.length = 16 * 3 ∧ y.length = 16 * 2 ∧ 1 < 3 ∧ 1 < 2 ∧ x ≠ y ∧ zeroBytes 16 ≠ fit 16 [1] ∧ blockAt x 0 = blockAt y 0 ∧ blockAt x 1 = blockAt y 1 ∧
      ∀ i ≤ 1, blockAt x i = blockAt y i := by decide

/-- O19: one block of input, output adjacent. -/
theorem witness_EncryptWritesCiphertext :
    let s := flight 2 0x300 16 0x310 false false input16
    s.params.wf = true ∧ Memory.wf s.mem ∧ s.slot.configured = true ∧ s.latch.slen.toNat = 16 ∧
      Fits s.params s.latch.src.toNat 16 ∧ Fits s.params s.latch.dst.toNat (16 + 16) ∧
      Apart s.latch.src.toNat 16 s.latch.dst.toNat (16 + 16) := by
  unfold Fits Apart; decide

/-- O20 to O22: whole blocks, at length 16 and at length 0. -/
theorem witness_BlockCommands :
    ∀ s ∈ [flight 3 0x300 16 0x310 false false input16, flight 3 0xFFFFFFFF 0 0xFFFFFFFF true true input16],
      s.latch.slen.toNat % 16 = 0 ∧ Memory.wf s.mem ∧ s.slot.configured = true ∧
      Fits s.params s.latch.src.toNat s.latch.slen.toNat ∧ Fits s.params s.latch.dst.toNat s.latch.slen.toNat ∧
      Apart s.latch.src.toNat s.latch.slen.toNat s.latch.dst.toNat s.latch.slen.toNat := by
  unfold Fits Apart; decide

/-- O20: the unpad of the chained plaintext keeps a length for the ciphertext of a padded byte, and raises for no block at all. -/
theorem witness_DecryptOutcomes (key : List Byte) (iv : Block) :
    unpadBytes (cbcDec key iv (cbcEnc key iv (padBytes [0x61]))) false = .ok 1 ∧
    unpadBytes (cbcDec key iv []) false = .error .faultEmptyInput := by
  refine ⟨?_, by simp [cbcDec, splitBlocks, cbcDecLoop, joinBlocks, unpadBytes, unpadF]⟩
  rw [chained_byte]
  decide

/-- O23: no object held; a partial block with one held, with the length check off and on. -/
theorem witness_ObjectThenLengthChecks :
    (flight 3 0 0 0 false false State.reset).slot.configured = false ∧
    ∀ s ∈ [flight 3 0x300 15 0x400 false false input16, flight 3 0x300 15 0x400 false true input16],
      s.slot.configured = true ∧ Instr.decrypt ≠ .encrypt ∧ s.latch.slen.toNat % 16 ≠ 0 := by decide

/-- O24: the source one byte past the end, the destination one byte past the end, and ranges that share one byte. -/
theorem witness_RangeThenOverlapChecks :
    (let s := flight 6 0xFF1 16 0x100 false false input16
     s.slot.configured = true ∧ s.latch.slen.toNat % 16 = 0 ∧ ¬Fits s.params s.latch.src.toNat s.latch.slen.toNat) ∧
    (let s := flight 6 0x100 16 0xFF1 false false input16
     s.slot.configured = true ∧ s.latch.slen.toNat % 16 = 0 ∧
       ¬Fits s.params s.latch.dst.toNat (outRangeLen .cbcenc s.latch)) ∧
    (let s := flight 6 0x300 16 0x30F false false input16
     s.slot.configured = true ∧ s.latch.slen.toNat % 16 = 0 ∧ Fits s.params s.latch.src.toNat s.latch.slen.toNat ∧
       Fits s.params s.latch.dst.toNat (outRangeLen .cbcenc s.latch) ∧
       ¬Apart s.latch.src.toNat s.latch.slen.toNat s.latch.dst.toNat (outRangeLen .cbcenc s.latch)) := by
  unfold Fits Apart; decide

/-- O25: ENCRYPT of one byte, then DECRYPT of what it wrote, in the state it left. -/
theorem witness_EncryptThenDecryptGivesPlaintext :
    ∃ s t u : State, s.params.wf = true ∧ Memory.wf s.mem ∧ Memory.wf u.mem ∧ exec .encrypt s = .next t ∧
      t.status.err = 0x00 ∧ u.slot = s.slot ∧ u.latch.slen = t.outLen ∧
      (∀ i < t.outLen.toNat, u.mem.byte (u.latch.src.toNat + i) = t.mem.byte (s.latch.dst.toNat + i)) ∧
      Fits u.params u.latch.src.toNat u.latch.slen.toNat ∧ Fits u.params u.latch.dst.toNat u.latch.slen.toNat ∧
      Apart u.latch.src.toNat u.latch.slen.toNat u.latch.dst.toNat u.latch.slen.toNat := by
  have hx := execEncrypt_ok (s := flight 2 0x300 1 0x400 false false input16) (by decide)
  refine ⟨flight 2 0x300 1 0x400 false false input16, _,
    flight 3 0x400 16 0x500 false false
      (storeBytes 0x400 (cbcEnc (held State.reset).slot.keyBytes (held State.reset).slot.iv
        (padBytes (inputBytes (flight 2 0x300 1 0x400 false false input16)))) input16),
    by decide, input16_wf, Memory.wf_writeBytes input16_wf _ _, hx, rfl, rfl, by decide, fun i _ => rfl, .inr (by decide), .inr (by decide), ?_⟩
  unfold Apart
  decide

/-- O26: PAD of one byte, CBCENC of its output, and ENCRYPT of the same byte. -/
theorem witness_EncryptIsPadThenCbcenc :
    ∃ s t u v e w : State, s.params.wf = true ∧ Memory.wf s.mem ∧ Memory.wf u.mem ∧ Memory.wf e.mem ∧
      exec .pad s = .next t ∧ t.status.err = 0x00 ∧ exec .cbcenc u = .next v ∧ v.status.err = 0x00 ∧
      exec .encrypt e = .next w ∧ w.status.err = 0x00 ∧ u.latch.slen = t.outLen ∧
      (∀ i < t.outLen.toNat, u.mem.byte (u.latch.src.toNat + i) = t.mem.byte (s.latch.dst.toNat + i)) ∧
      e.slot = u.slot ∧ e.latch.slen = s.latch.slen ∧
      ∀ i < s.latch.slen.toNat, e.mem.byte (e.latch.src.toNat + i) = s.mem.byte (s.latch.src.toNat + i) := by
  refine ⟨flight 4 0x300 1 0x400 false false input16, _,
    flight 6 0x400 16 0x500 false false (storeBytes 0x400 (padBytes [0x61]) input16), _,
    flight 2 0x300 1 0x600 false false input16, _, by decide, input16_wf, Memory.wf_writeBytes input16_wf _ _, input16_wf,
    execPad_ok (by decide), rfl, execCbcenc_ok (by decide), rfl, execEncrypt_ok (by decide), rfl, by decide,
    fun i _ => rfl, rfl, rfl, fun i _ => rfl⟩

/-- The ciphertext of one byte at 0x300. -/
def ciphertext : State :=
  mem 0x300 (cbcEnc (held State.reset).slot.keyBytes (held State.reset).slot.iv (padBytes [0x61])) (held State.reset)

/-- O27: CBCDEC of the ciphertext of a padded byte, UNPAD of what it wrote, and DECRYPT of the same ciphertext. -/
theorem witness_DecryptIsCbcdecThenUnpad :
    ∃ s t u v e w : State, Memory.wf s.mem ∧ Memory.wf u.mem ∧ Memory.wf e.mem ∧
      exec .cbcdec s = .next t ∧ t.status.err = 0x00 ∧ exec .unpad u = .next v ∧ v.status.err = 0x00 ∧
      exec .decrypt e = .next w ∧ w.status.err = 0x00 ∧ u.latch.slen = t.outLen ∧ u.latch.harden = e.latch.harden ∧
      (∀ i < t.outLen.toNat, u.mem.byte (u.latch.src.toNat + i) = t.mem.byte (s.latch.dst.toNat + i)) ∧
      e.slot = s.slot ∧ e.latch.slen = s.latch.slen ∧
      ∀ i < s.latch.slen.toNat, e.mem.byte (e.latch.src.toNat + i) = s.mem.byte (s.latch.src.toNat + i) := by
  have hc : (cbcEnc (held State.reset).slot.keyBytes (held State.reset).slot.iv (padBytes [0x61])).length = 16 := by
    rw [length_cbcEnc _ _ _ (by decide)]; decide
  have hs : Memory.wf ciphertext.mem := Memory.wf_writeBytes (by decide) _ _
  have hin : ∀ w d, inputBytes (flight w 0x300 16 d false false ciphertext) =
      cbcEnc (held State.reset).slot.keyBytes (held State.reset).slot.iv (padBytes [0x61]) :=
    fun w d => inputBytes_stored (by decide) hc
  have hp : ∀ w d, chainedPlaintext (flight w 0x300 16 d false false ciphertext) = padBytes [0x61] := fun w d => by
    rw [chainedPlaintext, hin]; exact chained_byte _ _
  have hu : inputBytes (flight 5 0x400 16 0 false false (storeBytes 0x400 (padBytes [0x61]) ciphertext)) = padBytes [0x61] :=
    inputBytes_stored hs (by decide)
  refine ⟨flight 7 0x300 16 0x400 false false ciphertext, _,
    flight 5 0x400 16 0 false false (storeBytes 0x400 (padBytes [0x61]) ciphertext), _,
    flight 3 0x300 16 0x500 false false ciphertext, _, hs, Memory.wf_writeBytes hs _ _, hs,
    execCbcdec_ok (by decide), rfl, execUnpad_ok (by decide), ?_, execDecrypt_ok (by decide), ?_, by decide, rfl, ?_, rfl,
    rfl, fun i _ => rfl⟩
  · rw [hu]; decide
  · rw [hp]; decide
  · rw [hp]; exact fun i _ => rfl

/-- O28: two data memories that differ in a byte PAD does not read. -/
theorem witness_CommandsAreDetermined :
    let s := flight 4 0x300 3 0x400 false false (mem 0x500 [0x01] State.reset)
    let s' := flight 4 0x300 3 0x400 false false (mem 0x500 [0x02] State.reset)
    Memory.wf s.mem ∧ Memory.wf s'.mem ∧ s'.params = s.params ∧ s'.latch = s.latch ∧ s'.slot = s.slot ∧
      s.mem.byte 0x500 ≠ s'.mem.byte 0x500 ∧ ∀ a, ReadsOf .pad s.latch a → s'.mem.byte a = s.mem.byte a := by
  refine ⟨by decide, by decide, rfl, rfl, rfl, by decide, fun a ha => ?_⟩
  have h : a < 0x303 := by simpa [ReadsOf, InRange, flight] using ha.2
  rw [show (flight 4 0x300 3 0x400 false false (mem 0x500 [0x02] State.reset)).mem = [(0x500, 0x02)] by decide,
    show (flight 4 0x300 3 0x400 false false (mem 0x500 [0x01] State.reset)).mem = [(0x500, 0x01)] by decide]
  simp only [Memory.byte]
  rw [if_neg (by omega), if_neg (by omega)]

/-- O29: the first and the last byte PAD writes. -/
theorem witness_CommandsWriteOnlyTheirRange :
    ∃ s t : State, exec .pad s = .next t ∧ t.mem.byte 0x400 ≠ s.mem.byte 0x400 ∧ t.mem.byte 0x40F ≠ s.mem.byte 0x40F :=
  ⟨flight 4 0x300 3 0x400 false false input16, _, rfl, by decide, by decide⟩

/-- O30: a failing command of either kind, and an illegal word. -/
theorem witness_FailedCommandsHaveNoOtherEffect :
    (∃ s t : State, perform s = .next t ∧ t.status.err ≠ 0x00 ∧ t.status.err = 0x10) ∧
    (∃ s t : State, perform s = .next t ∧ t.status.err ≠ 0x00 ∧ t.status.err = 0x21) ∧
    (∃ s t : State, perform s = .next t ∧ t.status.err ≠ 0x00 ∧ t.status.err = 0x11) :=
  ⟨⟨flight 2 0 0 0 false false State.reset, _, rfl, by decide, by decide⟩,
   ⟨flight 3 0 0 0 false false (held State.reset), _,
      execDecrypt_ok (s := flight 3 0 0 0 false false (held State.reset)) (by decide), by decide, by decide⟩,
   ⟨flight 9 0 0 0 false false State.reset, _, rfl, by decide, by decide⟩⟩

/-- O31: a completion with an error, and one without. -/
theorem witness_CommandsRaiseOnlyTheirCodes :
    nextIs (exec .pad (flight 4 0x300 3 0x302 false false State.reset)) (fun t => t.status.err == 0x13) = true ∧
    nextIs (exec .pad (flight 4 0x300 3 0x303 false false State.reset)) (fun t => t.status.err == 0x00) = true := by decide

/-- O32: a step of each of the three kinds that changes the slot. -/
theorem witness_OnlyConfigClearResetChangeSlot :
    ∀ s ∈ [env [] [.reset] (held State.reset), flight 8 0 0 0 false false (held State.reset),
           configFlight 0x100 16 0x200 16 (held State.reset)],
      nextIs (step s) (fun t => t.slot != s.slot) = true := by decide

theorem witness_OnlyCmdWriteStartsCommand :
    nextIs (step (env [.busWrite 0x0C 32 5] [] State.reset)) (fun t => t.status.busy) = true ∧
    (env [.busWrite 0x0C 32 5] [] State.reset).status.busy = false := by decide

/-- O34: an issue and a reset that change `ERR`, and a host's write of a byte. -/
theorem witness_ResultsAreStable :
    (∀ s ∈ [env [.busWrite 0x0C 32 5] [] (raise .notConfigured State.reset), env [] [.reset] (raise .notConfigured State.reset)],
      s.status.busy = false ∧ nextIs (step s) (fun t => t.status.err != s.status.err) = true) ∧
    nextIs (step (env [.memWrite 0xFFF 1] [] State.reset)) (fun t => t.mem.byte 0xFFF != 0) = true := by decide

/-- O35 to O38: a state that meets every invariant and takes a step that writes memory, the status and the slot. -/
theorem witness_Invariants :
    (∀ s ∈ [flight 4 0x300 3 0xFF0 false false (held State.reset), configFlight 0x100 16 0x200 16 (held State.reset),
            env [.memWrite 0xFFF 1] [] State.reset],
      Inv s ∧ nextIs (step s) (fun t => t != s) = true) := by decide

/-- O41: a reset with PAD in flight changes the first byte of its range, where the byte differed from the free one. -/
theorem witness_ResetTouchesOnlyWriteRange :
    ∃ s t : State, ResetsTurn s ∧ step s = .next t ∧ s.status.busy = true ∧ t.mem.byte 0x40F ≠ s.mem.byte 0x40F := by
  have hm : Memory.wf (mem 0x40F [Config.freeByte 15 + 1] State.reset).mem := Memory.wf_writeBytes (by decide) _ _
  refine ⟨env [] [.reset] (flight 4 0x300 0 0x400 false false (mem 0x40F [Config.freeByte 15 + 1] State.reset)), _,
    rfl, rfl, rfl, ?_⟩
  have h1 : (mem 0x40F [Config.freeByte 15 + 1] State.reset).mem.byte 0x40F = Config.freeByte 15 + 1 :=
    Memory.byte_store_same (by decide) _ _
  have h2 : (Memory.writeBytes (mem 0x40F [Config.freeByte 15 + 1] State.reset).mem 0x400 (freeBytes 0 16)).byte (0x400 + 15) =
      (freeBytes 0 16)[15] := Memory.byte_writeBytes_same hm _ _ _ _
  show (Memory.writeBytes (mem 0x40F [Config.freeByte 15 + 1] State.reset).mem 0x400 (freeBytes 0 16)).byte (0x400 + 15) ≠
    (mem 0x40F [Config.freeByte 15 + 1] State.reset).mem.byte 0x40F
  rw [h1, h2]
  show Config.freeByte 15 ≠ Config.freeByte 15 + 1
  bv_omega

/-- O41, last clause: a PAD in flight past its checks, and the last byte of its range. -/
theorem witness_ResetDrawsFreeBytes :
    let s := env [] [.reset] (flight 4 0x300 3 0x400 false false (held State.reset))
    ResetsTurn s ∧ Memory.wf s.mem ∧ s.status.busy = true ∧ decode s.latch.word = .ok .pad ∧
      dataPhaseCheck .pad s = none ∧ 15 < outRangeLen .pad s.latch := by
  unfold ResetsTurn; decide

/-- O42: the host's turn by the schedule with a command in flight, and by a free turn, at every register. -/
theorem witness_BusWriteReachesRegister :
    ∀ x ∈ registerMap,
      ∀ s ∈ [env [.busWrite x.1 32 7, .busRead 0 32] [.host] (flight 3 0 0 0 false false State.reset),
             env [.busWrite x.1 32 7, .busRead 0 32] [] State.reset],
        HostsTurn s ∧ s.env.host = .busWrite (s.params.regBase + x.1) 32 7 :: [.busRead 0 32] := by
  unfold HostsTurn; decide

/-- O43, O56: the same for a read, and for a `poll` that is satisfied and one that is not. -/
theorem witness_ReadAndPoll :
    ∀ x ∈ registerMap,
      (HostsTurn (env [.busRead x.1 32] [] overrun) ∧
        (env [.busRead x.1 32] [] overrun).env.host = .busRead (overrun.params.regBase + x.1) 32 :: []) ∧
      (HostsTurn (env [.poll x.1 0x1 0x0] [] overrun) ∧
        (env [.poll x.1 0x1 0x0] [] overrun).env.host = .poll (overrun.params.regBase + x.1) 0x1 0x0 :: []) := by
  unfold HostsTurn; decide

theorem witness_PollRepeatsUntilSatisfied :
    readReg .status overrun &&& 0x1 = 0x0 ∧
    readReg .status (flight 0 0 0 0 false false State.reset) &&& 0x1 ≠ 0x0 := by decide

/-- O44: a narrow access, a misaligned one at the last offset, and the first and the last reserved offset. -/
theorem witness_BusAccessRules :
    ∀ x ∈ [(0x00, 16), (0x3F, 32), (0x30, 32), (0x3C, 32)],
      (∀ op ∈ [HostOp.busRead x.1 x.2, .busWrite x.1 x.2 1, .poll x.1 0 1, .poll x.1 0 0],
        HostsTurn (env [op] [] State.reset)) ∧ x.1 < 64 ∧
      (env [.busRead x.1 x.2] [] State.reset).env.host = .busRead (State.reset.params.regBase + x.1) x.2 :: [] ∧
      ((x.2 ≠ 32 ∨ x.1 % 4 ≠ 0) ∨ (x.2 = 32 ∧ x.1 % 4 = 0 ∧ 0x30 ≤ x.1)) := by
  unfold HostsTurn; decide

/-- O47: an object of each key length, and none. -/
theorem witness_StatusLayout :
    State.reset.slot.configured = false ∧
    ∀ k ∈ [16, 24, 32], (setSlot (Slot.construct k [] []) State.reset).slot.configured = true ∧
      (setSlot (Slot.construct k [] []) State.reset).slot.klen = k := by decide

/-- O48, O49: a command in flight, and none. -/
theorem witness_CmdWriteIssues :
    (flight 3 0 0 0 false false State.reset).status.busy = true ∧ State.reset.status.busy = false := by decide

/-- O50: the first and the last byte PAD reads, and the first and the last byte it writes. -/
theorem witness_HostRaceFaults :
    let s := flight 4 0x300 3 0x400 false false State.reset
    (∀ a ∈ [0x300, 0x302], HostsTurn (env [.memWrite a 1] [.host] s) ∧ a < s.params.memSize ∧ ReadsOf .pad s.latch a) ∧
    (∀ a ∈ [0x400, 0x40F], HostsTurn (env [.memRead a] [.host] s) ∧ a < s.params.memSize ∧ WritesOf .pad s.latch a) ∧
    s.status.busy = true ∧ decode s.latch.word = .ok .pad ∧ dataPhaseCheck .pad s = none := by
  unfold HostsTurn ReadsOf WritesOf InRange; decide

/-- O51: the bytes beside the ranges of a PAD in flight, for a read the bytes it reads too, and the last byte of memory with nothing in
flight. -/
theorem witness_HostDataAccess :
    (let s := flight 4 0x300 3 0x400 false false State.reset
     (∀ a ∈ [0x2FF, 0x303, 0x3FF, 0x410], HostsTurn (env [.memRead a] [.host] s) ∧ a < s.params.memSize ∧
        ¬ReadsOf .pad s.latch a ∧ ¬WritesOf .pad s.latch a) ∧
     (∀ a ∈ [0x300, 0x302], HostsTurn (env [.memRead a] [.host] s) ∧ a < s.params.memSize ∧
        ReadsOf .pad s.latch a ∧ ¬WritesOf .pad s.latch a) ∧ Memory.wf s.mem ∧
      ∀ i, decode s.latch.word = .ok i → i = .pad) ∧
    HostsTurn (env [.memWrite 0xFFF 1] [] State.reset) ∧ 0xFFF < State.reset.params.memSize := by
  refine ⟨⟨by unfold HostsTurn ReadsOf WritesOf InRange; decide, by unfold HostsTurn ReadsOf WritesOf InRange; decide,
    by decide, fun i h => ?_⟩, by unfold HostsTurn; decide⟩
  have : decode (4 : Word) = .ok .pad := by decide
  cases (show Except.ok i = Except.ok Instr.pad from h.symm.trans this)
  rfl

/-- O52: a store at an address that memory lists, with ranges that end and begin beside it. -/
theorem witness_MemoryReadsWhatWasWritten :
    Memory.wf [(4, 0x01), (5, 0x02)] ∧ (2 + 2 ≤ 4 ∨ 4 + 2 ≤ 2) ∧ (6 + 2 ≤ 4 ∨ 4 + 2 ≤ 6) := by decide

/-- O53: a completion that raises it, and an acknowledgement, a `CTRL` write and a reset that clear it. -/
theorem witness_InterruptIsLevel :
    nextIs (perform { flight 9 0 0 0 false false State.reset with ctrl := ctrlOfWord 1 }) irq = true ∧
    (0x2 : Word).getLsbD 1 = true ∧ irq { overrun with ctrl := ctrlOfWord 1 } = true ∧
    irq (platformReset { overrun with ctrl := ctrlOfWord 1 }) = false := by decide

/-- O54: two turns of the host before the engine's. -/
theorem witness_CommandInFlightEnds :
    let s := env [.busRead 0 32] [.host, .host] (flight 0 0 0 0 false false State.reset)
    s.status.busy = true ∧ s.env.sched.length < 3 ∧ ∃ u, Host.Core.run core 3 s = .next u :=
  ⟨rfl, by decide, _, rfl⟩

/-- O55: an engine's step that records a fault code, and a host's step. -/
theorem witness_FaultCodesAreRecorded :
    (let s := flight 5 0 0 0 false false State.reset
     EnginesTurn s ∧ s.status.busy = true ∧ nextIs (step s) (fun t => t.faultSeen) = true) ∧
    (let s := env [.busRead 0 32] [.host] { State.reset with faultSeen := true }
     ¬EnginesTurn s ∧ nextIs (step s) (fun t => t.faultSeen) = true) := by
  unfold EnginesTurn; decide

theorem witness_IrqSampleRecordsOutput :
    HostsTurn (env [.irqSample] [] overrun) ∧ (env [.irqSample] [] overrun).env.host = .irqSample :: [] := by
  unfold HostsTurn; decide

/-- A run whose last line leaves NOP in flight, with a reset's turn in the schedule after it has ended. -/
def lastNop : State := env [.busWrite 0x0C 32 0] [.host, .engine, .reset] State.reset

/-- O58: the run ends after the engine has performed, before the reset, with `DONE` set (R261 "at that point"). -/
theorem witness_RunHasOneEndState :
    ¬(lastNop.env.host = [] ∧ lastNop.status.busy = false) ∧
    ∃ t, EndsIn lastNop t ∧ SafeEnd lastNop t ∧ t.status.done = true ∧ t.env.sched = [.reset] := by
  have h : ∃ t, EndsIn lastNop t ∧ t.faultSeen = false ∧ t.status.done = true ∧ t.env.sched = [.reset] := by
    refine ⟨_, ⟨2, rfl, ⟨rfl, rfl⟩, fun j hj u hu => ?_⟩, rfl, rfl, rfl⟩
    rcases j with _ | _ | j
    · cases hu; simp [Ended, lastNop, env]
    · cases hu; exact fun he => absurd he.2 (by decide)
    · omega
  obtain ⟨t, he, hf, hd, hs⟩ := h
  exact ⟨by decide, t, he, ⟨he, hf⟩, hd, hs⟩

end Sys2Proof.Tests
end

section
/-! PROOFS of the family 00_scope.md: commands are determined by what they read (R20), who changes the slot (R21, R51), the
platform's parameters (R10), and the memory primitives (R14). -/

namespace Sys2Proof.Machine

/-! ### What a host access and an engine's step keep -/

@[simp] theorem writeOffset_params (off : Nat) (v : Word) (s : State) : (writeOffset off v s).params = s.params := by
  rcases writeOffset_cases off v s with h | h | h | ⟨_, _, h⟩ | ⟨_, _, h⟩ | ⟨_, h⟩ <;> rw [h] <;> rfl

@[simp] theorem writeOffset_slot (off : Nat) (v : Word) (s : State) : (writeOffset off v s).slot = s.slot := by
  rcases writeOffset_cases off v s with h | h | h | ⟨_, _, h⟩ | ⟨_, _, h⟩ | ⟨_, h⟩ <;> rw [h] <;> rfl

theorem hostMove_keeps_params_slot {s t : State} (h : hostMove s = .next t) : t.params = s.params ∧ t.slot = s.slot := by
  rcases hostMove_cases h with ⟨_, rfl⟩ | ⟨_, off, v, _, _, rfl⟩ | ⟨_, rfl⟩ | ⟨_, rfl⟩ | ⟨_, _, _, _, _, rfl⟩ <;> simp

theorem exec_params {i : Instr} {s t : State} (h : exec i s = .next t) : t.params = s.params := by
  rcases exec_inv h with ⟨_, _, rfl⟩ | ⟨_, rfl⟩ <;> simp

theorem perform_params {s t : State} (h : perform s = .next t) : t.params = s.params := by
  rcases perform_cases s with ⟨i, _, hp⟩ | ⟨_, hp⟩ <;> rw [hp] at h
  · exact exec_params h
  · cases h
    rfl

/-! ### Who changes the slot (R21, R51) -/

theorem nextSlot_of_ne {i : Instr} (hconfig : i ≠ .config) (hclear : i ≠ .clear) (s : State) : nextSlot i s = s.slot := by
  cases i
  case config => exact absurd rfl hconfig
  case clear => exact absurd rfl hclear
  all_goals rfl

/-- Only CONFIG and CLEAR change the slot (R51). -/
theorem exec_changes_slot {i : Instr} {s t : State} (h : exec i s = .next t) (hne : t.slot ≠ s.slot) :
    i = .config ∨ i = .clear := by
  by_contra hi
  obtain ⟨hconfig, hclear⟩ := not_or.mp hi
  rcases exec_inv h with ⟨_, _, rfl⟩ | ⟨_, rfl⟩
  · exact hne rfl
  · exact hne (by simp [nextSlot_of_ne hconfig hclear])

theorem instrOfOpc_inv {n : Nat} {i : Instr} (h : instrOfOpc n = some i) : n = i.opc := by
  unfold instrOfOpc at h
  split at h <;> cases h <;> rfl

/-- A word that decodes is the word of its command (R102). -/
theorem eq_encode_of_decode {w : Word} {i : Instr} (h : decode w = .ok i) : w = encode i := by
  unfold decode at h
  split_ifs at h with hrsv
  have hrsv : rsvOf w = 0 := not_not.mp hrsv
  cases hi : instrOfOpc (opcOf w) with
  | none => simp [hi] at h
  | some j =>
    simp only [hi, Except.ok.injEq] at h
    have hopc : opcOf w = i.opc := h ▸ instrOfOpc_inv hi
    rw [rsvOf_eq] at hrsv
    rw [opcOf_eq] at hopc
    have hw : w.toNat = i.opc := by omega
    rw [encode, ← hw, BitVec.ofNat_toNat, BitVec.setWidth_eq]

/-- An engine's step that changes the slot performs word 1 (CONFIG) or word 8 (CLEAR). -/
theorem perform_changes_slot {s t : State} (h : perform s = .next t) (hne : t.slot ≠ s.slot) :
    s.latch.word = 0x00000001 ∨ s.latch.word = 0x00000008 := by
  rcases perform_cases s with ⟨i, hd, hp⟩ | ⟨_, hp⟩ <;> rw [hp] at h
  · have hw := eq_encode_of_decode hd
    rcases exec_changes_slot h hne with rfl | rfl
    · exact .inl hw
    · exact .inr hw
  · cases h
    exact absurd rfl hne

/-! ### What a command's results depend on (R20) -/

/-- Two states give a command the same inputs: parameters, latch, slot, and the bytes its row of R90 reads. -/
structure SameInputs (i : Instr) (s s' : State) : Prop where
  params : s'.params = s.params
  latch : s'.latch = s.latch
  slot : s'.slot = s.slot
  bytes : ∀ a, ReadsOf i s.latch a → s'.mem.byte a = s.mem.byte a

/-- CONFIG builds the same slot from the same key and IV bytes. -/
theorem SameInputs.constructed_eq {s s' : State} (h : SameInputs .config s s') : constructed s' = constructed s := by
  have hkey : s'.mem.readBytes s.latch.kaddrN s.latch.klenN = s.mem.readBytes s.latch.kaddrN s.latch.klenN :=
    Memory.readBytes_congr fun k hk => h.bytes _ (.inl ⟨Nat.le_add_right _ _, Nat.add_lt_add_left hk _⟩)
  have hiv : s'.mem.readBytes s.latch.ivaddrN Config.ivLen = s.mem.readBytes s.latch.ivaddrN Config.ivLen :=
    Memory.readBytes_congr fun k hk => h.bytes _ (.inr ⟨Nat.le_add_right _ _, Nat.add_lt_add_left hk _⟩)
  rw [constructed, constructed, h.latch, hkey, hiv]

theorem SameInputs.nextSlot_eq {i : Instr} {s s' : State} (h : SameInputs i s s') : nextSlot i s' = nextSlot i s := by
  by_cases hconfig : i = .config
  · subst hconfig
    exact h.constructed_eq
  by_cases hclear : i = .clear
  · subst hclear
    rfl
  rw [nextSlot_of_ne hconfig hclear, nextSlot_of_ne hconfig hclear, h.slot]

/-- The bytes written and the completion are functions of the source buffer, the slot and the latch. -/
theorem SameInputs.output_eq {i : Instr} {s s' : State} (h : SameInputs i s s') :
    writtenBytes i s' = writtenBytes i s ∧ completionOf i s' = completionOf i s := by
  obtain ⟨-, hl, hc, hb⟩ := h
  cases i
  case nop | config | clear => exact ⟨rfl, rfl⟩
  all_goals
    have hin : inputBytes s' = inputBytes s := inputBytes_congr (by rw [hl]) fun k hk => by
      rw [hl]
      exact hb _ ⟨Nat.le_add_right _ _, Nat.add_lt_add_left hk _⟩
    simp only [writtenBytes, completionOf, chainedPlaintext, hin, hl, hc, and_self]

theorem finishUnpad_err_congr (r : Except ErrCode Nat) (s s' : State) :
    (finishUnpad r s').status.err = (finishUnpad r s).status.err := by cases r <;> rfl

theorem finishUnpad_outLen_congr (r : Except ErrCode Nat) (s s' : State) :
    (finishUnpad r s').outLen = (finishUnpad r s).outLen := by cases r <;> rfl

/-- One write to two memories: a byte it changes in either is the same in both after it. -/
theorem Memory.byte_writeBytes_of_changed {m m' : Memory} (hm : m.wf) (hm' : m'.wf) (base : Nat) (v : List Byte) {a : Nat}
    (h : (m.writeBytes base v).byte a ≠ m.byte a ∨ (m'.writeBytes base v).byte a ≠ m'.byte a) :
    (m'.writeBytes base v).byte a = (m.writeBytes base v).byte a := by
  by_cases ha : base ≤ a ∧ a < base + v.length
  · obtain ⟨k, rfl⟩ := Nat.exists_eq_add_of_le ha.1
    have hk : k < v.length := Nat.lt_of_add_lt_add_left ha.2
    rw [Memory.byte_writeBytes_same hm' base v k hk, Memory.byte_writeBytes_same hm base v k hk]
  · rcases h with h | h <;> exact absurd (Memory.byte_writeBytes_other _ _ _ ha) h

/-! ### The obligations -/

/-- Settles O28: both runs pass or fail their checks together; a failing check changes no byte, and passing checks write the same
bytes to the same range. -/
theorem commandsAreDetermined : Obligations.CommandsAreDetermined := by
  intro i s s' hm hm' hp hl hc hb
  have hin : SameInputs i s s' := ⟨hp, hl, hc, hb⟩
  refine ⟨_, _, exec_eq i s, exec_eq i s', ?_⟩
  rw [dataPhaseCheck_congr i hin.params hin.latch hin.slot]
  cases dataPhaseCheck i s with
  | some e => exact ⟨rfl, rfl, hc, fun a h => by simp at h⟩
  | none =>
    obtain ⟨hw, hr⟩ := hin.output_eq
    rw [hw, hr, hin.nextSlot_eq, hl]
    refine ⟨finishUnpad_err_congr _ _ _, finishUnpad_outLen_congr _ _ _, by simp, fun a h => ?_⟩
    simp only [finishUnpad_mem, setSlot_mem, storeBytes_mem] at h ⊢
    exact Memory.byte_writeBytes_of_changed hm hm' _ _ h

/-- Settles O32, by the four kinds of step: a reset, an engine's step, an idle engine's turn and a host access. -/
theorem onlyConfigClearResetChangeSlot : Obligations.OnlyConfigClearResetChangeSlot := by
  intro s t h hne
  rcases step_cases s with ⟨hr, _⟩ | ⟨he, hbusy, hs⟩ | ⟨_, _, hs⟩ | ⟨_, hs⟩
  · exact .inl hr
  · exact .inr ⟨he, hbusy, perform_changes_slot (s := popTurn s) (hs.symm.trans h) hne⟩
  · rw [hs] at h
    cases h
    exact absurd rfl hne
  · exact absurd (hostMove_keeps_params_slot (hs.symm.trans h)).2 hne

/-- Settles O38, by the four kinds of step. -/
theorem parametersNeverChange : Obligations.ParametersNeverChange := by
  intro s t h
  rcases step_cases s with ⟨_, hs⟩ | ⟨_, _, hs⟩ | ⟨_, _, hs⟩ | ⟨_, hs⟩ <;> rw [hs] at h
  · cases h
    simp
  · exact perform_params (s := popTurn s) h
  · cases h
    rfl
  · exact (hostMove_keeps_params_slot h).1

/-- Settles O52: a range read back byte by byte lies wholly inside the range written or wholly outside it. -/
theorem memoryReadsWhatWasWritten : Obligations.MemoryReadsWhatWasWritten := by
  intro m a v hm
  refine ⟨Memory.wf_writeBytes hm a v, ?_, fun k n hapart => ?_⟩
  · refine List.ext_getElem (by simp) fun i _ hi => ?_
    rw [Memory.getElem_readBytes, Memory.byte_writeBytes_same hm a v i hi]
  · exact Memory.readBytes_congr fun i hi => Memory.byte_writeBytes_other m a v (by omega)

end Sys2Proof.Machine
end

section
/-! PROOFS of the family 10_state.md: the invariants of the slot (R50) and of `STATUS` (R40, R41, R44, R203), the register window
(R31 to R47), the issue of a command (R45, R46) and the reset values (R55). -/

namespace Sys2Proof.Machine

/-! ### The slot's rule (R50) -/

theorem slotOk_empty : SlotOk Slot.empty := ⟨by decide, fun _ => ⟨rfl, rfl, rfl⟩⟩

/-- Construction fills the key up with zero bytes from its length on (R132 step 4). -/
theorem slotOk_construct {klen : Nat} {key : List Byte} (hlen : klen ∈ Config.keyLengths) (hkey : key.length = klen)
    (iv : List Byte) : SlotOk (Slot.construct klen key iv) := by
  have hle : klen ≤ 32 := by
    simp only [Config.keyLengths, List.mem_cons, List.not_mem_nil, or_false] at hlen
    omega
  refine ⟨fun _ => ⟨hlen, ?_⟩, fun h => by cases h⟩
  simp only [Slot.construct, fit_val, fitList_eq, List.take_of_length_le (hkey.trans_le hle), hkey]
  exact List.drop_left' hkey

theorem klen_mem_of_configCheck {s : State} (h : configCheck s = none) : s.latch.klenN ∈ Config.keyLengths := by
  unfold configCheck at h
  split_ifs at h with hlen
  simpa using hlen

theorem nextSlot_slotOk {i : Instr} {s : State} (hc : dataPhaseCheck i s = none) (hs : SlotOk s.slot) :
    SlotOk (nextSlot i s) := by
  cases i
  case config => exact slotOk_construct (klen_mem_of_configCheck hc) (Memory.length_readBytes _ _ _) _
  case clear => exact slotOk_empty
  all_goals exact hs

theorem exec_slotOk {i : Instr} {s t : State} (hs : SlotOk s.slot) (h : exec i s = .next t) : SlotOk t.slot := by
  rcases exec_inv h with ⟨_, _, rfl⟩ | ⟨hc, rfl⟩
  · exact hs
  · rw [finishUnpad_slot]
    exact nextSlot_slotOk hc hs

theorem perform_slotOk {s t : State} (hs : SlotOk s.slot) (h : perform s = .next t) : SlotOk t.slot := by
  rcases perform_cases s with ⟨_, _, hp⟩ | ⟨_, hp⟩ <;> rw [hp] at h
  · exact exec_slotOk hs h
  · cases h
    exact hs

/-- Settles O36, by the four kinds of step: only a reset and an engine's step give the slot a new value. -/
theorem slotStaysConsistent : Obligations.SlotStaysConsistent := by
  intro s t hs h
  rcases step_cases s with ⟨_, hstep⟩ | ⟨_, _, hstep⟩ | ⟨_, _, hstep⟩ | ⟨_, hstep⟩ <;> rw [hstep] at h
  · cases h
    rw [platformReset_slot]
    exact slotOk_empty
  · exact perform_slotOk (s := popTurn s) hs h
  · cases h
    exact hs
  · rw [(hostMove_keeps_params_slot h).2]
    exact hs

/-! ### The rules of `STATUS` (R40, R41, R44, R200, R203) -/

/-- The handshake, the codes of `ERR` with an error's `OUT_LEN`, and the fault record, together. -/
abbrev StatusOk (s : State) : Prop := HandshakeOk s ∧ ErrOk s ∧ FaultsRecorded s

/-- A clear `ERR`, with `DONE` not set while `BUSY`, meets all three whatever `OUT_LEN` and the fault record are. -/
theorem statusOk_of_err_eq_zero {s : State} (hd : s.status.busy = true → s.status.done = false) (he : s.status.err = 0) :
    StatusOk s :=
  ⟨fun hb => ⟨hd hb, he⟩, ⟨by rw [he]; decide, absurd he⟩, fun h => by rw [he] at h; exact absurd h (by decide)⟩

theorem finish_statusOk (m : Nat) (s : State) : StatusOk (finish m s) := statusOk_of_err_eq_zero (by simp) rfl

theorem raise_statusOk {e : ErrCode} (he : e.byte ∈ reportableCodes) (s : State) : StatusOk (raise e s) :=
  ⟨by simp, ⟨he, fun _ => rfl⟩,
    fun h => by simp [isFaultByte, show 0x20 ≤ e.byte.toNat from h]⟩

theorem rangeCheck_some {p : Params} {a n b m : Nat} {e : ErrCode} (h : rangeCheck p a n b m = some e) :
    e = .busFault ∨ e = .bufferOverlap := by
  unfold rangeCheck at h
  split_ifs at h <;> cases h <;> simp

/-- The check of a command before its data phase raises a code of the command's row of R205. -/
theorem dataPhaseCheck_mem_codesOf {i : Instr} {s : State} {e : ErrCode} (h : dataPhaseCheck i s = some e) :
    e.byte ∈ codesOf i := by
  cases i <;> simp only [dataPhaseCheck, configCheck, encryptCheck, decryptCheck, padCheck, unpadCheck, cbcencCheck,
    cbcdecCheck] at h
  case nop | clear => cases h
  case config | unpad => split_ifs at h <;> cases h <;> decide
  case pad => rcases rangeCheck_some h with rfl | rfl <;> decide
  case encrypt =>
    split_ifs at h
    · cases h; decide
    · rcases rangeCheck_some h with rfl | rfl <;> decide
  case decrypt =>
    split_ifs at h
    iterate 3 · cases h; decide
    · rcases rangeCheck_some h with rfl | rfl <;> decide
  case cbcenc | cbcdec =>
    split_ifs at h
    iterate 2 · cases h; decide
    · rcases rangeCheck_some h with rfl | rfl <;> decide

/-- A command past its checks raises, where its unpad does, a code of its row of R205. -/
theorem completionOf_mem_codesOf {i : Instr} {s : State} {e : ErrCode} (h : completionOf i s = .error e) :
    e.byte ∈ codesOf i := by
  cases i
  case decrypt | unpad => rcases unpadBytes_error h with ⟨_, rfl⟩ | ⟨_, rfl | rfl⟩ <;> decide
  all_goals cases h

/-- No row of R205 lists a code that `ERR` cannot hold (R204). -/
theorem reportable_of_mem_codesOf {i : Instr} {c : Byte} (h : c ∈ codesOf i) : c ∈ reportableCodes := by
  have hrow : codesOf i ⊆ reportableCodes := by cases i <;> decide
  exact hrow h

theorem exec_statusOk {i : Instr} {s t : State} (h : exec i s = .next t) : StatusOk t := by
  rcases exec_cases i s with ⟨e, hc, hx⟩ | ⟨_, u, _, ⟨m, _, hx⟩ | ⟨e, hc, hx⟩⟩ <;> cases hx.symm.trans h
  · exact raise_statusOk (reportable_of_mem_codesOf (dataPhaseCheck_mem_codesOf hc)) s
  · exact finish_statusOk m u
  · exact raise_statusOk (reportable_of_mem_codesOf (completionOf_mem_codesOf hc)) u

/-- The engine's step meets the rules of `STATUS` whatever it starts from. -/
theorem perform_statusOk {s t : State} (h : perform s = .next t) : StatusOk t := by
  rcases perform_cases s with ⟨_, _, hp⟩ | ⟨_, hp⟩ <;> rw [hp] at h
  · exact exec_statusOk h
  · cases h
    exact raise_statusOk (by decide) s

/-- No register write breaks them: an acknowledgement clears `DONE` alone, an issue starts with `ERR` and `DONE` clear. -/
theorem writeOffset_statusOk {s : State} (hs : StatusOk s) (off : Nat) (v : Word) : StatusOk (writeOffset off v s) := by
  rcases writeOffset_cases off v s with h | h | h | ⟨_, _, h⟩ | ⟨_, _, h⟩ | ⟨_, h⟩ <;> rw [h]
  case inr.inr.inl =>
    obtain ⟨hshake, herr, hfault⟩ := hs
    exact ⟨fun hb => ⟨by simp [(hshake hb).1], (hshake hb).2⟩, herr, hfault⟩
  case inr.inr.inr.inl => exact statusOk_of_err_eq_zero (fun _ => rfl) rfl
  all_goals exact hs

theorem hostMove_statusOk {s t : State} (hs : StatusOk s) (h : hostMove s = .next t) : StatusOk t := by
  rcases hostMove_cases h with ⟨_, rfl⟩ | ⟨_, off, v, _, _, rfl⟩ | ⟨_, rfl⟩ | ⟨_, rfl⟩ | ⟨_, _, _, _, _, rfl⟩
  case inr.inl => exact writeOffset_statusOk (s := popHost s) hs off v
  all_goals exact hs

/-- Settles O37, by the four kinds of step: a reset and an engine's step establish the rules, a host access keeps them. -/
theorem statusStaysConsistent : Obligations.StatusStaysConsistent := by
  intro s t hs h
  rcases step_cases s with ⟨_, hstep⟩ | ⟨_, _, hstep⟩ | ⟨_, _, hstep⟩ | ⟨_, hstep⟩ <;> rw [hstep] at h
  · cases h
    exact statusOk_of_err_eq_zero (by simp [Status.reset]) (by simp [Status.reset])
  · exact perform_statusOk h
  · cases h
    exact hs
  · exact hostMove_statusOk (s := popTurn s) hs h

/-! ### The register window and the host's turn (R31, R32, R82) -/

/-- An access that reaches an offset is a 32-bit access at `REG_BASE` plus that offset. -/
theorem busTarget_offset_inv {p : Params} {addr width off : Nat} (h : busTarget p addr width = .offset off) :
    addr = p.regBase + off := by
  unfold busTarget at h
  split_ifs at h with hwin hok
  cases h
  omega

theorem regAt_inv {off : Nat} {r : Reg} (h : regAt off = some r) : off = r.offset := by
  unfold regAt at h
  split at h <;> cases h <;> rfl

theorem readOffset_offset (r : Reg) (s : State) : readOffset r.offset s = readReg r s := by
  simp only [readOffset, regAt_offset]

theorem writeOffset_offset (r : Reg) (v : Word) (s : State) : writeOffset r.offset v s = writeReg r v s := by
  simp only [writeOffset, regAt_offset]

theorem offset_aligned (r : Reg) : r.offset < 64 ∧ r.offset % 4 = 0 := by cases r <;> decide

theorem busWrite_window (s : State) {off : Nat} (width : Nat) (v : Word) (h : off < 64) :
    busWrite (s.params.regBase + off) width v s =
      if width = 32 ∧ off % 4 = 0 then .next (writeOffset off v s) else .fault .hostBusError := by
  simp only [busWrite, busTarget_window _ _ h]
  split_ifs <;> rfl

theorem busRead_window (s : State) {off : Nat} (width : Nat) (h : off < 64) :
    busRead (s.params.regBase + off) width s =
      if width = 32 ∧ off % 4 = 0 then .next (record (.reg (s.params.regBase + off) (readOffset off s)) s)
      else .fault .hostBusError := by
  simp only [busRead, busTarget_window _ _ h]
  split_ifs <;> rfl

theorem pollOnce_window (s : State) {off : Nat} (mask value : Word) (h : off < 64) :
    pollOnce (s.params.regBase + off) mask value s =
      if off % 4 = 0 then
        .next (record (.reg (s.params.regBase + off) (readOffset off s))
          (if readOffset off s &&& mask = value then popHost s else s))
      else .fault .hostBusError := by
  by_cases h4 : off % 4 = 0 <;> simp only [pollOnce, busTarget_window _ _ h, h4, and_true, and_false, if_true, if_false]

/-- The state with one turn taken and `rest` left of the host's list. -/
def tookAccess (rest : List HostOp) (s : State) : State :=
  { s with env := { s.env with host := rest, sched := s.env.sched.tail } }

theorem readOffset_tookAccess (off : Nat) (rest : List HostOp) (s : State) :
    readOffset off (tookAccess rest s) = readOffset off s := by
  unfold readOffset
  cases regAt off with
  | none => rfl
  | some r => exact readReg_env r s _

/-- In the host's turn a write of the window is done at its offset, or gets a bus error (R32). -/
theorem step_busWrite {s : State} {off width : Nat} {v : Word} {rest : List HostOp} (ht : HostsTurn s) (hoff : off < 64)
    (hh : s.env.host = .busWrite (s.params.regBase + off) width v :: rest) :
    step s = if width = 32 ∧ off % 4 = 0 then .next (writeOffset off v (tookAccess rest s)) else .fault .hostBusError := by
  calc step s = busWrite (s.params.regBase + off) width v (popHost (popTurn s)) := by
        rw [hostsTurn_step ht]; simp only [hostMove, popTurn_env, hh]
    _ = busWrite ((tookAccess rest s).params.regBase + off) width v (tookAccess rest s) := by
        rw [popHost_popTurn hh]; rfl
    _ = _ := busWrite_window _ _ _ hoff

/-- In the host's turn a read of the window records the value at its offset, or gets a bus error (R32, R108). -/
theorem step_busRead {s : State} {off width : Nat} {rest : List HostOp} (ht : HostsTurn s) (hoff : off < 64)
    (hh : s.env.host = .busRead (s.params.regBase + off) width :: rest) :
    step s = if width = 32 ∧ off % 4 = 0 then
        .next (record (.reg (s.params.regBase + off) (readOffset off s)) (tookAccess rest s))
      else .fault .hostBusError := by
  calc step s = busRead (s.params.regBase + off) width (popHost (popTurn s)) := by
        rw [hostsTurn_step ht]; simp only [hostMove, popTurn_env, hh]
    _ = busRead ((tookAccess rest s).params.regBase + off) width (tookAccess rest s) := by
        rw [popHost_popTurn hh]; rfl
    _ = _ := by rw [busRead_window _ _ hoff, readOffset_tookAccess]; rfl

/-- In the host's turn one read of a `poll` records the value at its offset, and is done where the value is the wanted one; or it gets
a bus error (R32, R108). -/
theorem step_poll {s : State} {off : Nat} {mask value : Word} {rest : List HostOp} (ht : HostsTurn s) (hoff : off < 64)
    (hh : s.env.host = .poll (s.params.regBase + off) mask value :: rest) :
    step s = if off % 4 = 0 then
        .next (record (.reg (s.params.regBase + off) (readOffset off s))
          (tookAccess (if readOffset off s &&& mask = value then rest else s.env.host) s))
      else .fault .hostBusError := by
  have hpop : popTurn s = tookAccess s.env.host s := rfl
  calc step s = pollOnce (s.params.regBase + off) mask value (popTurn s) := by
        rw [hostsTurn_step ht]; simp only [hostMove, popTurn_env, hh]
    _ = _ := pollOnce_window (popTurn s) mask value hoff
    _ = _ := by
        rw [popHost_popTurn hh, hpop, readOffset_tookAccess]
        split_ifs <;> rfl

/-- A host access starts a command only by a 32-bit write at the address of `CMD` (R39, R45). -/
theorem hostMove_starts {s t : State} (h : hostMove s = .next t) (hidle : s.status.busy = false) (hbusy : t.status.busy = true) :
    ∃ v, s.env.host.head? = some (.busWrite (s.params.regBase + 0x0C) 32 v) ∧ t.latch.word = v := by
  rcases hostMove_cases h with ⟨_, rfl⟩ | ⟨addr, off, v, hhead, htarget, rfl⟩ | ⟨_, rfl⟩ | ⟨_, rfl⟩ | ⟨_, _, _, _, _, rfl⟩
  case inr.inl =>
    rcases writeOffset_cases off v (popHost s) with hw | hw | hw | ⟨_, hcmd, hw⟩ | ⟨hb, _, _⟩ | ⟨_, hw⟩
    case inr.inr.inr.inl =>
      obtain rfl := busTarget_offset_inv htarget
      obtain rfl := regAt_inv hcmd
      exact ⟨v, hhead, by rw [hw]; rfl⟩
    case inr.inr.inr.inr.inl => exact absurd hb (by simp [hidle])
    all_goals exact absurd hbusy (by simp [hw, hidle])
  all_goals exact absurd hbusy (by simp [hidle])

/-- Settles O33, by the four kinds of step: after a reset no command is in flight, and an idle engine does nothing. -/
theorem onlyCmdWriteStartsCommand : Obligations.OnlyCmdWriteStartsCommand := by
  intro s t h hidle hbusy
  rcases step_cases s with ⟨_, hstep⟩ | ⟨_, hb, _⟩ | ⟨_, _, hstep⟩ | ⟨ht, hstep⟩
  · cases hstep.symm.trans h
    simp [Status.reset] at hbusy
  · simp [hidle] at hb
  · cases hstep.symm.trans h
    simp [hidle] at hbusy
  · exact ⟨ht, hostMove_starts (s := popTurn s) (hstep.symm.trans h) hidle hbusy⟩

/-- Settles O44: a bad width or offset gets the bus error, and at a reserved offset the access reads 0 and writes nothing. -/
theorem busAccessRules : Obligations.BusAccessRules := by
  intro s off rest ht hoff
  refine ⟨fun width v hh => ?_, fun width hh => ?_, fun mask value hh => ?_⟩
  · rw [step_busWrite ht hoff hh]
    refine ⟨fun hbad => if_neg (by tauto), fun h32 h4 h30 => ?_⟩
    rw [if_pos ⟨h32, h4⟩, writeOffset_reserved hoff h30]
    rfl
  · rw [step_busRead ht hoff hh]
    refine ⟨fun hbad => if_neg (by tauto), fun h32 h4 h30 => ?_⟩
    rw [if_pos ⟨h32, h4⟩, readOffset_reserved hoff h30]
    rfl
  · rw [step_poll ht hoff hh]
    refine ⟨fun hbad => if_neg hbad, fun h4 h30 => ?_⟩
    have hread : (0 : Word) &&& mask = value ↔ value = 0 := by
      rw [show (0 : Word) &&& mask = 0 from BitVec.zero_and, eq_comm]
    rw [if_pos h4, readOffset_reserved hoff h30]
    simp only [hread]
    rfl

/-- Settles O42: the offset of a row of the table is aligned, and holds the row's register. -/
theorem busWriteReachesRegister : Obligations.BusWriteReachesRegister := by
  intro s off r v rest hrow ht hh
  obtain rfl := offset_of_registerMap hrow
  obtain ⟨hoff, h4⟩ := offset_aligned r
  rw [step_busWrite ht hoff hh, if_pos ⟨rfl, h4⟩, writeOffset_offset]
  rfl

/-- Settles O43: as for a write, and the read adds to the trace alone. -/
theorem busReadHasNoSideEffect : Obligations.BusReadHasNoSideEffect := by
  intro s off r rest hrow ht hh
  obtain rfl := offset_of_registerMap hrow
  obtain ⟨hoff, h4⟩ := offset_aligned r
  rw [step_busRead ht hoff hh, if_pos ⟨rfl, h4⟩, readOffset_offset]
  rfl

/-! ### The fields of `STATUS` (R38, R44) -/

theorem statusWord_err (s : State) : (statusWord s).extractLsb' 8 8 = s.status.err := by
  refine BitVec.eq_of_getLsbD_eq fun i hi => ?_
  rw [BitVec.getLsbD_extractLsb', statusWord_getLsbD]
  interval_cases i <;> simp

theorem statusWord_ksize (s : State) : (statusWord s).extractLsb' 16 2 = BitVec.ofNat 2 (ksize s.slot) := by
  refine BitVec.eq_of_getLsbD_eq fun i hi => ?_
  rw [BitVec.getLsbD_extractLsb', statusWord_getLsbD]
  interval_cases i <;> simp

/-- Bits 7:4 and 31:18 are reserved and read 0. -/
theorem statusWord_reserved (s : State) : (statusWord s).extractLsb' 4 4 = 0 ∧ (statusWord s).extractLsb' 18 14 = 0 := by
  constructor <;> refine BitVec.eq_of_getLsbD_eq fun i hi => ?_ <;>
    rw [BitVec.getLsbD_extractLsb', statusWord_getLsbD] <;> interval_cases i <;> simp

/-- Settles O47, from `STATUS` bit by bit; `KSIZE` follows the slot's key length. -/
theorem statusLayout : Obligations.StatusLayout := by
  intro s
  have hbit : ∀ i, (readReg .status s).getLsbD i = _ := statusWord_getLsbD s
  have hksize : (readReg .status s).extractLsb' 16 2 = _ := statusWord_ksize s
  obtain ⟨hlow, hhigh⟩ := statusWord_reserved s
  refine ⟨hbit 0, hbit 1, hbit 2, hbit 3, hlow, statusWord_err s, fun hc => ?_, fun hc hk => ?_, fun hc hk => ?_,
    fun hc hk => ?_, hhigh⟩ <;> rw [hksize]
  · simp [ksize, hc]
  all_goals simp [ksize, hc, hk]

/-! ### Register writes (R33, R34, R38, R41, R43, R45, R47) -/

theorem writeCmd_busy {s : State} (h : s.status.busy = true) (v : Word) : writeCmd v s = markOverrun s := if_pos h

theorem writeCmd_idle {s : State} (h : s.status.busy = false) (v : Word) : writeCmd v s = issue v s := by
  simp only [writeCmd, h, Bool.false_eq_true, if_false]

/-- A write of `CMD` touches `STATUS` and the latch alone. -/
theorem writeCmd_eq (v : Word) (s : State) :
    writeCmd v s = { s with status := (writeCmd v s).status, latch := (writeCmd v s).latch } := by
  cases h : s.status.busy with
  | true => rw [writeCmd_busy h]; rfl
  | false => rw [writeCmd_idle h]; rfl

/-- A write of `CTRL` keeps bits 2 to 0 (R34). -/
theorem ctrlWord_ctrlOfWord (v : Word) : ctrlWord (ctrlOfWord v) = v &&& 0x00000007 := by
  refine BitVec.eq_of_getLsbD_eq fun i hi => ?_
  rw [ctrlWord_getLsbD]
  interval_cases i <;> simp [ctrlOfWord]

/-- A write of `STATUS` clears `DONE` and `OVR` where bits 1 and 3 are set (R38). -/
theorem statusWord_ackStatus (v : Word) (s : State) :
    statusWord (ackStatus v s) = statusWord s &&& ~~~(v &&& 0x0000000A) := by
  refine BitVec.eq_of_getLsbD_eq fun i hi => ?_
  simp only [BitVec.getLsbD_and, BitVec.getLsbD_not, statusWord_getLsbD]
  interval_cases i <;> simp

/-- A command lost sets `OVR` (R43). -/
theorem statusWord_markOverrun (s : State) : statusWord (markOverrun s) = statusWord s ||| 0x00000008 := by
  refine BitVec.eq_of_getLsbD_eq fun i hi => ?_
  simp only [BitVec.getLsbD_or, statusWord_getLsbD]
  interval_cases i <;> simp

/-- An issue clears `DONE` and `ERR` and sets `BUSY` (R45). -/
theorem statusWord_issue (v : Word) (s : State) :
    statusWord (issue v s) = statusWord s &&& 0xFFFF00FD ||| 0x00000001 := by
  refine BitVec.eq_of_getLsbD_eq fun i hi => ?_
  simp only [BitVec.getLsbD_or, BitVec.getLsbD_and, statusWord_getLsbD]
  interval_cases i <;> simp

/-- A register's write changes what another reads only for `CMD` and `STATUS`. -/
theorem readReg_writeReg_other {r r' : Reg} (hne : r' ≠ r) (hcmd : ¬(r = .cmd ∧ r' = .status)) (v : Word) (s : State) :
    readReg r' (writeReg r v s) = readReg r' s := by
  cases r
  case id | outLen => rfl
  case cmd =>
    rw [writeReg, writeCmd_eq]
    cases r'
    case status => exact absurd ⟨rfl, rfl⟩ hcmd
    all_goals rfl
  all_goals
    cases r' <;> try rfl
    exact absurd rfl hne

/-- Settles O45: the same register, then `STATUS` after a write of `CMD`, then every other pair. -/
theorem registerReadAfterWrite : Obligations.RegisterReadAfterWrite := by
  intro s r r' v
  by_cases hsame : r' = r
  · subst hsame
    rw [if_pos rfl]
    cases r'
    case ctrl => exact ctrlWord_ctrlOfWord v
    case status => exact statusWord_ackStatus v s
    all_goals rfl
  rw [if_neg hsame]
  by_cases hcmd : r = .cmd ∧ r' = .status
  · obtain ⟨rfl, rfl⟩ := hcmd
    rw [if_pos ⟨rfl, rfl⟩]
    cases hb : s.status.busy with
    | true => rw [writeReg, writeCmd_busy hb]; exact statusWord_markOverrun s
    | false => rw [writeReg, writeCmd_idle hb]; exact statusWord_issue v s
  · rw [if_neg hcmd]
    exact readReg_writeReg_other hsame hcmd v s

/-- Settles O46, register by register. -/
theorem registerWriteFrame : Obligations.RegisterWriteFrame := by
  intro s r v
  cases r
  case cmd =>
    rw [writeReg, writeCmd_eq]
    exact ⟨rfl, rfl, rfl, rfl, rfl, rfl, rfl, absurd rfl⟩
  all_goals exact ⟨rfl, rfl, rfl, rfl, rfl, rfl, rfl, fun _ => rfl⟩

/-- Settles O48: the two branches of a write of `CMD`. -/
theorem cmdWriteIssues : Obligations.CmdWriteIssues :=
  fun _ v => ⟨rfl, fun hb => writeCmd_busy hb v, fun hb => writeCmd_idle hb v⟩

/-! ### A command in flight (R45, R46, R254) -/

/-- While a command is in flight no register write changes the latch (R46). -/
theorem writeReg_latch_of_busy {s : State} (hb : s.status.busy = true) (r : Reg) (v : Word) :
    (writeReg r v s).latch = s.latch := by
  cases r
  case cmd => rw [writeReg, writeCmd_busy hb]; rfl
  all_goals rfl

theorem finishUnpad_faultSeen_congr (r : Except ErrCode Nat) {s s' : State} (h : s'.faultSeen = s.faultSeen) :
    (finishUnpad r s').faultSeen = (finishUnpad r s).faultSeen := by
  cases r <;> simp [finishUnpad, h]

/-- What the engine's step does to `ERR`, `OUT_LEN`, the slot, data memory and the fault record depends on the parameters, the latch,
the slot, data memory and the record alone. -/
theorem perform_congr {s s' : State} (hp : s'.params = s.params) (hl : s'.latch = s.latch) (hc : s'.slot = s.slot)
    (hm : s'.mem = s.mem) (hf : s'.faultSeen = s.faultSeen) :
    ∃ t t', perform s = .next t ∧ perform s' = .next t' ∧ t'.status.err = t.status.err ∧
      t'.outLen = t.outLen ∧ t'.slot = t.slot ∧ t'.mem = t.mem ∧ t'.faultSeen = t.faultSeen := by
  unfold perform
  rw [hl]
  cases decode s.latch.word with
  | error e => exact ⟨_, _, rfl, rfl, rfl, rfl, hc, hm, by simp [hf]⟩
  | ok i =>
    refine ⟨_, _, exec_eq i s, exec_eq i s', ?_⟩
    rw [dataPhaseCheck_congr i hp hl hc]
    cases dataPhaseCheck i s with
    | some e => exact ⟨rfl, rfl, hc, hm, by simp [hf]⟩
    | none =>
      have hin : SameInputs i s s' := ⟨hp, hl, hc, fun a _ => by rw [hm]⟩
      obtain ⟨hw, hr⟩ := hin.output_eq
      rw [hw, hr, hin.nextSlot_eq, hl]
      exact ⟨finishUnpad_err_congr _ _ _, finishUnpad_outLen_congr _ _ _, by simp, by simp [hm],
        finishUnpad_faultSeen_congr _ (by simpa using hf)⟩

/-- Settles O49: a register write with a command in flight leaves everything the engine's step depends on as it was. -/
theorem latchIsolatesCommand : Obligations.LatchIsolatesCommand := by
  intro s r v hb
  obtain ⟨hmem, hslot, _, hparams, _, hfault, _, _⟩ := registerWriteFrame s r v
  exact perform_congr hparams (writeReg_latch_of_busy hb r v) hslot hmem hfault

theorem decode_of_decodeTableWord {w : Nat} {i : Instr} (h : decodeTableWord 32 w = some i) :
    decode (BitVec.ofNat 32 w) = .ok i := by
  rw [decodeTableWord, decodeBytes_bytesOfWord, tableWord_32] at h
  cases hd : decode (BitVec.ofNat 32 w) with
  | ok j => rw [hd] at h; cases h; rfl
  | error e => rw [hd] at h; cases h

/-- A step with a command in flight and the engine's turn put first is that command's. -/
theorem step_engineNext {s : State} {i : Instr} (hb : s.status.busy = true) (hd : decode s.latch.word = .ok i) :
    step (engineNext s) = exec i s := by
  calc step (engineNext s) = engineTurn s := rfl
    _ = perform s := if_pos hb
    _ = exec i s := by simp only [perform, hd]

/-- Settles O5: the placed word is issued as a write of `CMD` with no command in flight issues it, and the engine moves next. -/
theorem placedWordRunsNext : Obligations.PlacedWordRunsNext := by
  intro s w i h
  rw [State.withFetchWord, placeCommand, tableWord_32, writeReg, writeCmd_idle rfl]
  exact step_engineNext rfl (decode_of_decodeTableWord h)

/-! ### The reset values (R55) -/

theorem readReg_reset (r : Reg) : readReg r State.reset = if r = .id then 0x41455301 else 0 := by
  cases r <;> decide

/-- After a reset of any state every register reads as in the reset state. -/
theorem readReg_platformReset (r : Reg) (s : State) : readReg r (platformReset s) = readReg r State.reset := by
  cases r <;> rfl

/-- Settles O39: each invariant in turn, of a state with nothing held, in flight or in memory. -/
theorem resetStateMeetsInvariants : Obligations.ResetStateMeetsInvariants :=
  ⟨⟨by decide, by decide, by decide, slotOk_empty, by decide, by decide⟩, readReg_reset, rfl⟩

/-- Settles O40: the reset's block is the reset state's, whatever became of data memory. -/
theorem resetRestoresBlock : Obligations.ResetRestoresBlock := by
  rintro s t rfl
  refine ⟨fun r => (readReg_platformReset r s).trans (readReg_reset r), ?_⟩
  exact ⟨rfl, rfl, rfl, rfl, rfl, rfl, rfl, rfl, rfl, rfl, rfl, rfl⟩

end Sys2Proof.Machine
end

section
/-! PROOFS of the family 20_memory.md: data memory's canonical form and bound (R72, R73), the range a command writes (R90), and the
host's accesses of data memory with the duties of R84. -/

namespace Sys2Proof.Machine

/-! ### Data memory stays canonical and inside `MEM_SIZE` (R72, R73) -/

theorem memOk_congr {s t : State} (hs : MemOk s) (hp : t.params = s.params) (hm : t.mem = s.mem) : MemOk t := by
  unfold MemOk
  rw [hp, hm]
  exact hs

/-- A write of an admitted range lists no address at or above `MEM_SIZE`. -/
theorem storeBytes_memOk {s : State} (hs : MemOk s) {a : Nat} {v : List Byte} (ha : admitted s.params a v.length = true) :
    MemOk (storeBytes a v s) := by
  obtain ⟨hwf, hbound⟩ := hs
  refine ⟨Memory.wf_writeBytes hwf a v, fun c hc => ?_⟩
  rw [storeBytes_params]
  rcases Memory.mem_writeBytes hc with hold | ⟨hlow, hhigh⟩
  · exact hbound c hold
  · rcases (admitted_iff _ _ _).mp ha with hempty | hfits <;> omega

/-- The range a command writes has been admitted once its checks have passed; for a command that writes none it is empty. -/
theorem writtenBytes_admitted {i : Instr} {s : State} (hc : dataPhaseCheck i s = none) :
    admitted s.params s.latch.dstN (writtenBytes i s).length = true := by
  rw [length_writtenBytes_eq hc]
  cases i
  case nop | config | unpad | clear => exact (admitted_iff _ _ _).mpr (.inl rfl)
  all_goals exact writes_admitted hc _ (List.mem_singleton_self _)

theorem exec_memOk {i : Instr} {s t : State} (hs : MemOk s) (h : exec i s = .next t) : MemOk t := by
  rcases exec_inv h with ⟨_, _, rfl⟩ | ⟨hc, rfl⟩
  · exact hs
  · exact memOk_congr (storeBytes_memOk hs (writtenBytes_admitted hc)) (by simp) (by simp)

theorem perform_memOk {s t : State} (hs : MemOk s) (h : perform s = .next t) : MemOk t := by
  rcases perform_cases s with ⟨_, _, hp⟩ | ⟨_, hp⟩ <;> rw [hp] at h
  · exact exec_memOk hs h
  · cases h
    exact hs

/-- The ranges a reset scrambles are those of a command past its checks, so they lie inside data memory (R241). -/
theorem scramble_memOk {s : State} (hs : MemOk s) : MemOk (scramble s) := by
  unfold scramble
  split
  · refine foldl_scrambleSpan_memOk _ s hs fun r hr => ?_
    obtain ⟨i, _, hc, hrow⟩ := mem_footprint_writes hr
    exact writes_admitted hc r hrow
  · exact hs

@[simp] theorem writeOffset_mem (off : Nat) (v : Word) (s : State) : (writeOffset off v s).mem = s.mem := by
  rcases writeOffset_cases off v s with h | h | h | ⟨_, _, h⟩ | ⟨_, _, h⟩ | ⟨_, h⟩ <;> rw [h] <;> rfl

theorem hostMove_memOk {s t : State} (hs : MemOk s) (h : hostMove s = .next t) : MemOk t := by
  rcases hostMove_cases h with ⟨_, rfl⟩ | ⟨_, off, v, _, _, rfl⟩ | ⟨_, rfl⟩ | ⟨_, rfl⟩ | ⟨a, b, _, ha, _, rfl⟩
  case inr.inl => exact memOk_congr hs (by simp) (by simp)
  case inr.inr.inr.inr => exact storeBytes_memOk (s := popHost s) hs ((admitted_iff _ _ _).mpr (.inr ha))
  all_goals exact hs

/-- Settles O35, by the four kinds of step: whatever writes data memory writes a range inside it. -/
theorem memoryStaysCanonical : Obligations.MemoryStaysCanonical := by
  intro s t hs h
  rcases step_cases s with ⟨_, hstep⟩ | ⟨_, _, hstep⟩ | ⟨_, _, hstep⟩ | ⟨_, hstep⟩ <;> rw [hstep] at h
  · cases h
    exact scramble_memOk (s := popTurn s) hs
  · exact perform_memOk (s := popTurn s) hs h
  · cases h
    exact hs
  · exact hostMove_memOk (s := popTurn s) hs h

/-! ### The range a command writes (R90) -/

/-- Settles O29: a failing check changes no byte, and passing checks write as many bytes as the command's row says. -/
theorem commandsWriteOnlyTheirRange : Obligations.CommandsWriteOnlyTheirRange := by
  intro i s t h a hne
  rcases exec_inv h with ⟨_, _, rfl⟩ | ⟨hc, rfl⟩
  · exact absurd rfl hne
  · by_contra hout
    refine hne ?_
    rw [finishUnpad_mem, setSlot_mem, storeBytes_mem]
    refine Memory.byte_writeBytes_other _ _ _ ?_
    rw [length_writtenBytes_eq hc]
    exact hout

/-! ### The host and data memory (R72, R82, R84) -/

/-- The bytes that the command in flight reads are those of its row of R90, if it passes its checks. -/
theorem footprint_readsByte_iff_exists (s : State) (a : Nat) : (footprint s).readsByte a = true ↔
    ∃ i, decode s.latch.word = .ok i ∧ dataPhaseCheck i s = none ∧ ReadsOf i s.latch a := by
  refine ⟨fun h => ?_, fun ⟨i, hd, hc, hr⟩ => (footprint_readsByte_iff hd hc a).mpr hr⟩
  obtain ⟨r, hmem, _⟩ := List.any_eq_true.mp h
  obtain ⟨i, hd, hc, _⟩ := mem_footprint_reads hmem
  exact ⟨i, hd, hc, (footprint_readsByte_iff hd hc a).mp h⟩

/-- The bytes that the command in flight writes are those of its row of R90, if it passes its checks. -/
theorem footprint_writesByte_iff_exists (s : State) (a : Nat) : (footprint s).writesByte a = true ↔
    ∃ i, decode s.latch.word = .ok i ∧ dataPhaseCheck i s = none ∧ WritesOf i s.latch a := by
  refine ⟨fun h => ?_, fun ⟨i, hd, hc, hw⟩ => (footprint_writesByte_iff hd hc a).mpr hw⟩
  obtain ⟨r, hmem, _⟩ := List.any_eq_true.mp h
  obtain ⟨i, hd, hc, _⟩ := mem_footprint_writes hmem
  exact ⟨i, hd, hc, (footprint_writesByte_iff hd hc a).mp h⟩

/-- Which host writes break the duties of R84, in the words of the statements. -/
theorem writeRaces_iff (s : State) (a : Nat) : writeRaces s a = true ↔
    s.status.busy = true ∧ ∃ i, decode s.latch.word = .ok i ∧ dataPhaseCheck i s = none ∧
      (ReadsOf i s.latch a ∨ WritesOf i s.latch a) := by
  rw [writeRaces, Bool.and_eq_true, Bool.or_eq_true, footprint_readsByte_iff_exists, footprint_writesByte_iff_exists,
    ← exists_or]
  simp only [← and_or_left]

/-- Which host reads break the duties of R84, in the words of the statements. -/
theorem readRaces_iff (s : State) (a : Nat) : readRaces s a = true ↔
    s.status.busy = true ∧ ∃ i, decode s.latch.word = .ok i ∧ dataPhaseCheck i s = none ∧ WritesOf i s.latch a := by
  rw [readRaces, Bool.and_eq_true, footprint_writesByte_iff_exists]

@[simp] theorem footprint_tookAccess (rest : List HostOp) (s : State) : footprint (tookAccess rest s) = footprint s :=
  footprint_congr rfl rfl rfl

theorem writeRaces_tookAccess (rest : List HostOp) (s : State) (a : Nat) :
    writeRaces (tookAccess rest s) a = writeRaces s a := by
  rw [writeRaces, footprint_tookAccess]
  rfl

theorem readRaces_tookAccess (rest : List HostOp) (s : State) (a : Nat) :
    readRaces (tookAccess rest s) a = readRaces s a := by
  rw [readRaces, footprint_tookAccess]
  rfl

theorem hostStore_of_lt {s : State} {a : Nat} (ha : a < s.params.memSize) (b : Byte) :
    hostStore a b s = if writeRaces s a then .fault .hostRace else .next (storeBytes a [b] s) :=
  if_neg (Nat.not_le.mpr ha)

theorem hostLoad_of_lt {s : State} {a : Nat} (ha : a < s.params.memSize) :
    hostLoad a s = if readRaces s a then .fault .hostRace else .next (record (.mem a (s.mem.byte a)) s) :=
  if_neg (Nat.not_le.mpr ha)

/-- In the host's turn a write of a byte of data memory is done, or is a race (R84). -/
theorem step_memWrite {s : State} {a : Nat} {b : Byte} {rest : List HostOp} (ht : HostsTurn s) (ha : a < s.params.memSize)
    (hh : s.env.host = .memWrite a b :: rest) :
    step s = if writeRaces s a then .fault .hostRace else .next (storeBytes a [b] (tookAccess rest s)) := by
  calc step s = hostStore a b (popHost (popTurn s)) := by
        rw [hostsTurn_step ht]; simp only [hostMove, popTurn_env, hh]
    _ = hostStore a b (tookAccess rest s) := by rw [popHost_popTurn hh]; rfl
    _ = _ := by rw [hostStore_of_lt (s := tookAccess rest s) ha, writeRaces_tookAccess]

/-- In the host's turn a read of a byte of data memory records it, or is a race (R84). -/
theorem step_memRead {s : State} {a : Nat} {rest : List HostOp} (ht : HostsTurn s) (ha : a < s.params.memSize)
    (hh : s.env.host = .memRead a :: rest) :
    step s = if readRaces s a then .fault .hostRace
      else .next (record (.mem a (s.mem.byte a)) (tookAccess rest s)) := by
  calc step s = hostLoad a (popHost (popTurn s)) := by
        rw [hostsTurn_step ht]; simp only [hostMove, popTurn_env, hh]
    _ = hostLoad a (tookAccess rest s) := by rw [popHost_popTurn hh]; rfl
    _ = _ := by rw [hostLoad_of_lt (s := tookAccess rest s) ha, readRaces_tookAccess]; rfl

/-- Settles O50: the byte of the command's row is one that races. -/
theorem hostRaceFaults : Obligations.HostRaceFaults := by
  intro s i a rest ht hbusy hd hc ha
  refine ⟨fun b hh hrow => ?_, fun hh hrow => ?_⟩
  · rw [step_memWrite ht ha hh, if_pos ((writeRaces_iff s a).mpr ⟨hbusy, i, hd, hc, hrow⟩)]
  · rw [step_memRead ht ha hh, if_pos ((readRaces_iff s a).mpr ⟨hbusy, i, hd, hc, hrow⟩)]

/-- Settles O51: a byte outside the command's row does not race, so the access is done. -/
theorem hostDataAccess : Obligations.HostDataAccess := by
  intro s a rest ht ha hm
  refine ⟨fun hduty b hh => ?_, fun hduty hh => ?_⟩
  · have hrace : ¬writeRaces s a = true := by
      rw [writeRaces_iff]
      rintro ⟨hbusy, i, hd, _, hrow⟩
      obtain ⟨hnread, hnwrite⟩ := hduty hbusy i hd
      exact hrow.elim hnread hnwrite
    refine ⟨s.mem.store a b, Memory.byte_store_same hm a b, fun k hk => Memory.byte_store_other _ b hk, ?_⟩
    rw [step_memWrite ht ha hh, if_neg hrace]
    rfl
  · have hrace : ¬readRaces s a = true := by
      rw [readRaces_iff]
      rintro ⟨hbusy, i, hd, _, hrow⟩
      exact hduty hbusy i hd hrow
    rw [step_memRead ht ha hh, if_neg hrace]
    rfl

end Sys2Proof.Machine
end

section
/-! PROOFS of the family 30_encoding.md: a command and its word determine each other (R100, R102), what an illegal word does (R106,
R107), and the `poll` line (R108). -/

namespace Sys2Proof.Machine

/-! ### A command and its word (R100, R102) -/

theorem instrOfOpc_opc (i : Instr) : instrOfOpc i.opc = some i := by cases i <;> rfl

theorem opc_le (i : Instr) : i.opc ≤ 8 := by cases i <;> decide

@[simp] theorem toNat_encode (i : Instr) : (encode i).toNat = i.opc := by
  have h := opc_le i
  rw [encode, BitVec.toNat_ofNat, Nat.mod_eq_of_lt (by omega)]

/-- The word of a command has a zero reserved field and the command's opcode, so decoding undoes encoding. -/
@[simp] theorem decode_encode (i : Instr) : decode (encode i) = .ok i := by
  have h := opc_le i
  have hrsv : rsvOf (encode i) = 0 := by rw [rsvOf_eq, toNat_encode]; omega
  have hopc : opcOf (encode i) = i.opc := by rw [opcOf_eq, toNat_encode]; omega
  simp [decode, hrsv, hopc, instrOfOpc_opc]

theorem decode_eq_ok_iff (w : Word) (i : Instr) : decode w = .ok i ↔ w = encode i :=
  ⟨eq_encode_of_decode, fun h => h ▸ decode_encode i⟩

/-- Settles O2: a word that decodes is its command's, and decoding undoes encoding; the nine words are the opcodes. -/
theorem wordDecodesExactlyToItsCommand : Obligations.WordDecodesExactlyToItsCommand :=
  ⟨decode_eq_ok_iff, rfl, rfl, rfl, rfl, rfl, rfl, rfl, rfl, rfl⟩

/-- Settles O1: each word written out is the encoding of its command. -/
theorem opcodeWordsDecode : Obligations.OpcodeWordsDecode :=
  ⟨decode_encode .nop, decode_encode .config, decode_encode .encrypt, decode_encode .decrypt, decode_encode .pad,
    decode_encode .unpad, decode_encode .cbcenc, decode_encode .cbcdec, decode_encode .clear⟩

/-! ### Illegal and legal words (R106, R107) -/

/-- Every opcode up to 0x08 is assigned (R102). -/
theorem exists_opc_eq {n : Nat} (h : n ≤ 8) : ∃ i : Instr, i.opc = n := by
  have hall : ∀ k < 9, ∃ i ∈ Instr.all, i.opc = k := by decide
  obtain ⟨i, _, hi⟩ := hall n (by omega)
  exact ⟨i, hi⟩

/-- A word with a non-zero reserved field or a reserved opcode is no command's. -/
theorem decode_ne_ok_of_illegal {w : Word} (h : w.toNat / 256 ≠ 0 ∨ w.toNat % 256 > 8) (i : Instr) : decode w ≠ .ok i := by
  intro hd
  have hw : w.toNat = i.opc := by rw [eq_encode_of_decode hd, toNat_encode]
  have hle := opc_le i
  omega

/-- A word with a zero reserved field and an assigned opcode is the word of that opcode's command. -/
theorem exists_decode_of_legal {w : Word} (h : w.toNat / 256 = 0 ∧ w.toNat % 256 ≤ 8) :
    ∃ i : Instr, i.opc = w.toNat ∧ decode w = .ok i := by
  obtain ⟨i, hi⟩ := exists_opc_eq (n := w.toNat) (by omega)
  have hw : w = encode i := BitVec.eq_of_toNat_eq (by rw [toNat_encode, hi])
  exact ⟨i, hi, (decode_eq_ok_iff w i).mpr hw⟩

theorem perform_of_decode {s : State} {i : Instr} (h : decode s.latch.word = .ok i) : perform s = exec i s := by
  simp only [perform, h]

/-- Settles O3: an illegal word is no command's, so the engine raises; a legal one is the word of its opcode's command. -/
theorem illegalWordRaisesIllegalCommand : Obligations.IllegalWordRaisesIllegalCommand := by
  intro s
  refine ⟨fun hill => ?_, fun hleg => ?_⟩
  · rcases perform_cases s with ⟨i, hd, _⟩ | ⟨_, hp⟩
    · exact absurd hd (decode_ne_ok_of_illegal hill i)
    · exact ⟨_, hp, raise_completes s .illegalCommand⟩
  · obtain ⟨i, hopc, hd⟩ := exists_decode_of_legal hleg
    exact ⟨i, hopc, perform_of_decode hd⟩

/-! ### The `poll` line (R108) -/

/-- Settles O56: the offset of a row of the table is aligned and holds the row's register, whose value decides what stays listed. -/
theorem pollRepeatsUntilSatisfied : Obligations.PollRepeatsUntilSatisfied := by
  intro s off r mask value rest hrow ht hh
  obtain rfl := offset_of_registerMap hrow
  obtain ⟨hoff, h4⟩ := offset_aligned r
  rw [step_poll ht hoff hh, if_pos h4, readOffset_offset]
  rfl

end Sys2Proof.Machine
end

section
/-! PROOFS of the family 40_construction.md: the engine's step and the completion of every body (R130), NOP and CLEAR (R131, R136),
and CONFIG (R132 to R135, R138). -/

namespace Sys2Proof.Machine

/-! ### The engine's turn (R130, R252) -/

theorem EnginesTurn.not_resetsTurn {s : State} (h : EnginesTurn s) : ¬ResetsTurn s := by
  unfold ResetsTurn
  rcases h with h | ⟨h, _⟩ <;> simp [h]

/-- With a command in flight the next event is the engine's or the host's, not both (R252). -/
theorem EnginesTurn.not_hostsTurn {s : State} (h : EnginesTurn s) (hb : s.status.busy = true) : ¬HostsTurn s := by
  unfold HostsTurn
  rcases h with h | ⟨h, _⟩ <;> simp [h, hb]

/-- In the engine's turn the step performs the command in flight. -/
theorem enginesTurn_step {s : State} (h : EnginesTurn s) (hb : s.status.busy = true) : step s = perform (popTurn s) := by
  rcases step_cases s with ⟨hr, _⟩ | ⟨_, _, hs⟩ | ⟨_, hidle, _⟩ | ⟨hh, _⟩
  · exact absurd hr h.not_resetsTurn
  · exact hs
  · simp [hb] at hidle
  · exact absurd hh (h.not_hostsTurn hb)

/-- Settles O4: the engine performs the command in flight, whose word decodes to `i`. -/
theorem stepPerformsDecodedCommand : Obligations.StepPerformsDecodedCommand := by
  intro s i ht hb hd
  calc step s = perform (popTurn s) := enginesTurn_step ht hb
    _ = exec i (popTurn s) := perform_of_decode (s := popTurn s) hd

/-! ### Every body ends in a completion (R130, R210, R211) -/

/-- A completion writes `STATUS` and `OUT_LEN`, the data phase before it the slot and data memory: the rest stays. -/
theorem complete_keepsRegisters (code : Byte) (m : Nat) (c : Slot) (a : Nat) (v : List Byte) (s : State) :
    KeepsRegisters s (complete code m (setSlot c (storeBytes a v s))) := ⟨rfl, rfl, rfl, rfl, rfl, rfl⟩

/-- Settles O6, by the three ways a command ends: a raise before its data phase, a finish after it, a raise after it. -/
theorem everyCommandEndsInOneCompletion : Obligations.EveryCommandEndsInOneCompletion := by
  intro i s
  rcases exec_cases i s with ⟨e, _, hx⟩ | ⟨_, _, rfl, ⟨m, _, hx⟩ | ⟨e, _, hx⟩⟩
  · obtain ⟨_, hregs, _, _⟩ := raise_completes s e
    exact ⟨_, hx, rfl, rfl, hregs⟩
  · exact ⟨_, hx, rfl, rfl, complete_keepsRegisters _ m _ _ _ s⟩
  · exact ⟨_, hx, rfl, rfl, complete_keepsRegisters e.byte 0 _ _ _ s⟩

/-! ### NOP and CLEAR (R131, R136) -/

/-- After a command that ends with `OK`, with no object held and `OVR` clear, only `DONE` is set (R38). -/
theorem statusWord_finish_of_not_configured {s : State} (hc : s.slot.configured = false) (ho : s.status.ovr = false) (m : Nat) :
    statusWord (finish m s) = 0x00000002 := by
  simp [statusWord, ksize, hc, ho]

/-- Settles O7: both finish with length 0, CLEAR after it has emptied the slot. -/
theorem nopAndClearComplete : Obligations.NopAndClearComplete := by
  intro s
  refine ⟨?_, ?_⟩
  · obtain ⟨hok, hregs⟩ := finish_completes s (m := 0) (by decide)
    exact ⟨_, execNop_eq s, hok, hregs, rfl, fun _ => rfl, fun hc ho => statusWord_finish_of_not_configured hc ho 0⟩
  · obtain ⟨hok, hregs⟩ := finish_completes (setSlot Slot.empty s) (m := 0) (by decide)
    exact ⟨_, execClear_eq s, hok, hregs, fun _ => rfl, rfl, rfl, rfl, rfl,
      fun ho => statusWord_finish_of_not_configured (s := setSlot Slot.empty s) rfl ho 0⟩

/-! ### The checks of CONFIG (R132 to R134) -/

/-- A key length that CONFIG accepts (R9, R133), in the words of the statements. -/
theorem keyLengths_contains_iff (n : Nat) : Config.keyLengths.contains n = true ↔ n = 16 ∨ n = 24 ∨ n = 32 := by
  simp [Config.keyLengths]

/-- The checks of CONFIG in the words of the statements: the key length, the IV length, then both ranges. -/
theorem configCheck_eq (s : State) : configCheck s =
    if ¬(s.latch.klen.toNat = 16 ∨ s.latch.klen.toNat = 24 ∨ s.latch.klen.toNat = 32) then some .invalidKeyLength
    else if s.latch.ivlen.toNat ≠ 16 then some .invalidIVLength
    else if ¬(admitted s.params s.latch.kaddr.toNat s.latch.klen.toNat = true ∧
      admitted s.params s.latch.ivaddr.toNat 16 = true) then some .busFault
    else none := by
  simp only [configCheck, Bool.not_eq_true', ← Bool.not_eq_true, keyLengths_contains_iff, Latch.klenN, Latch.ivlenN,
    Latch.kaddrN, Latch.ivaddrN, Config.ivLen]
  split_ifs <;> simp_all

/-- Settles O9: the first failing check is raised before the data phase, and a raise has no other effect. -/
theorem configFailureKeepsSlot : Obligations.ConfigFailureKeepsSlot := by
  intro s hbad
  by_cases hk : s.latch.klen.toNat = 16 ∨ s.latch.klen.toNat = 24 ∨ s.latch.klen.toNat = 32
  case neg =>
    have hc : configCheck s = some .invalidKeyLength := by rw [configCheck_eq, if_pos hk]
    rw [if_pos hk]
    exact ⟨_, execConfig_error hc, raise_completes s _⟩
  rw [if_neg (not_not.mpr hk)]
  by_cases hi : s.latch.ivlen.toNat = 16
  case neg =>
    have hc : configCheck s = some .invalidIVLength := by rw [configCheck_eq, if_neg (not_not.mpr hk), if_pos hi]
    rw [if_pos hi]
    exact ⟨_, execConfig_error hc, raise_completes s _⟩
  rw [if_neg (not_not.mpr hi)]
  have hr : ¬(admitted s.params s.latch.kaddr.toNat s.latch.klen.toNat = true ∧
      admitted s.params s.latch.ivaddr.toNat 16 = true) := by
    rw [← fits_iff, ← fits_iff]
    exact fun hr => hbad ⟨hk, hi, hr⟩
  have hc : configCheck s = some .busFault := by
    rw [configCheck_eq, if_neg (not_not.mpr hk), if_neg (not_not.mpr hi), if_pos hr]
  exact ⟨_, execConfig_error hc, raise_completes s _⟩

/-! ### The object CONFIG constructs (R132, R138) -/

/-- A sequence cut or filled up to `n` bytes, byte by byte. -/
theorem getElem?_fitList {n i : Nat} (h : i < n) (b : List Byte) : (fitList n b)[i]? = some (b[i]?.getD 0) := by
  induction n generalizing b i with
  | zero => omega
  | succ n ih =>
    cases b <;> cases i
    case nil.succ i => simpa [fitList] using ih (Nat.lt_of_succ_lt_succ h) []
    case cons.succ x xs i => simpa [fitList] using ih (Nat.lt_of_succ_lt_succ h) xs
    all_goals rfl

/-- Bytes of data memory filled up to `n`: those of the range, then zero bytes. -/
theorem getElem?_fitList_readBytes (m : Memory) (a k : Nat) {n i : Nat} (h : i < n) :
    (fitList n (m.readBytes a k))[i]? = some (if i < k then m.byte (a + i) else 0) := by
  rw [getElem?_fitList h]
  split_ifs with hik
  · rw [List.getElem?_eq_getElem (by simpa using hik), Memory.getElem_readBytes, Option.getD_some]
  · rw [List.getElem?_eq_none (by simpa using hik), Option.getD_none]

/-- The key length in `KSIZE` (R44). -/
theorem ksize_of_configured {c : Slot} (hc : c.configured = true) (hk : c.klen = 16 ∨ c.klen = 24 ∨ c.klen = 32) :
    ksize c = c.klen / 8 - 1 := by
  rcases hk with hk | hk | hk <;> simp [ksize, hc, hk]

/-- Settles O8: the checks pass, so CONFIG stores the constructed object and finishes; then the object byte by byte. -/
theorem configConstructs : Obligations.ConfigConstructs := by
  intro s hk hi hkey hiv
  rw [fits_iff] at hkey hiv
  have hc : configCheck s = none := by
    rw [configCheck_eq, if_neg (not_not.mpr hk), if_neg (not_not.mpr hi), if_neg (not_not.mpr (And.intro hkey hiv))]
  obtain ⟨hok, hregs⟩ := finish_completes (setSlot (constructed s) s) (m := 0) (by decide)
  refine ⟨_, execConfig_ok hc, hok, hregs, fun _ => rfl, rfl, rfl, fun i h => ?_, fun i h => ?_, ?_⟩
  · exact getElem?_fitList_readBytes s.mem _ _ h
  · exact (getElem?_fitList_readBytes s.mem _ 16 h).trans (congrArg some (if_pos h))
  · have hksize : ksize (constructed s) = s.latch.klen.toNat / 8 - 1 := ksize_of_configured rfl hk
    rw [← hksize]
    exact statusWord_ksize _

end Sys2Proof.Machine
end

section
/-! PROOFS of the family 41_padding.md: the two unpad variants (R152, R153, R158), that both undo the padding (R157), and the
commands PAD and UNPAD (R154, R155). -/

namespace Sys2Proof.Machine

/-! ### The two unpad variants (R152, R153, R156) -/

@[simp] theorem unpadBytes_false (b : List Byte) : unpadBytes b false = unpadF b := rfl

@[simp] theorem unpadBytes_true (b : List Byte) : unpadBytes b true = unpadH b := rfl

/-- On a buffer with last byte `n` the fidelity variant checks nothing but that `n` fits (R152). -/
theorem unpadF_of_getLast? {b : List Byte} {n : Byte} (h : b.getLast? = some n) :
    unpadF b = if n.toNat > b.length then .error .faultUnpadBounds else .ok (b.length - n.toNat) := by
  simp only [unpadF, h]

/-- On a buffer with last byte `n` the hardened variant checks the bounds of `n` and then the last `n` bytes (R153). -/
theorem unpadH_of_getLast? {b : List Byte} {n : Byte} (h : b.getLast? = some n) :
    unpadH b = if n.toNat < 1 ∨ n.toNat > 16 ∨ n.toNat > b.length then .error .invalidPadding
      else if b.drop (b.length - n.toNat) ≠ List.replicate n.toNat n then .error .invalidPadding
      else .ok (b.length - n.toNat) := by
  simp only [unpadH, h]

/-- `b` ends with `k` bytes `x`: as an end piece of the list, and byte by byte from the last one back. -/
theorem drop_eq_replicate_iff {b : List Byte} {k : Nat} (hk : k ≤ b.length) (x : Byte) :
    b.drop (b.length - k) = List.replicate k x ↔ ∀ j < k, b[b.length - 1 - j]? = some x := by
  have hrev : (b.drop (b.length - k)).reverse = b.reverse.take k := by
    rw [List.reverse_drop, Nat.sub_sub_self hk]
  calc b.drop (b.length - k) = List.replicate k x
      ↔ b.reverse.take k = List.replicate k x := by rw [← List.reverse_inj, hrev, List.reverse_replicate]
    _ ↔ ∀ j, (b.reverse.take k)[j]? = (List.replicate k x)[j]? := List.ext_getElem?_iff
    _ ↔ ∀ j < k, b[b.length - 1 - j]? = some x := by
      refine forall_congr' fun j => ?_
      by_cases hj : j < k
      · simp [hj, List.getElem?_reverse (Nat.lt_of_lt_of_le hj hk)]
      · simp [hj]

theorem unpadF_eq_ok_iff (b : List Byte) (m : Nat) :
    unpadF b = .ok m ↔ ∃ n : Byte, b.getLast? = some n ∧ n.toNat ≤ b.length ∧ m = b.length - n.toNat := by
  cases h : b.getLast? with
  | none => simp [unpadF, h]
  | some n =>
    rw [unpadF_of_getLast? h]
    split_ifs with hn
    · simp [hn]
    · simp [Nat.not_lt.mp hn, eq_comm]

theorem unpadH_eq_ok_iff (b : List Byte) (m : Nat) :
    unpadH b = .ok m ↔ ∃ n : Byte, b.getLast? = some n ∧ 1 ≤ n.toNat ∧ n.toNat ≤ 16 ∧ n.toNat ≤ b.length ∧
      m = b.length - n.toNat ∧ ∀ j < n.toNat, b[b.length - 1 - j]? = some n := by
  cases h : b.getLast? with
  | none => simp [unpadH, h]
  | some n =>
    rw [unpadH_of_getLast? h]
    split_ifs with hbounds htail
    · simp only [false_iff]
      rintro ⟨_, ⟨rfl⟩, h1, h16, hfit, _⟩
      omega
    · simp only [false_iff]
      rintro ⟨_, ⟨rfl⟩, _, _, hfit, _, hall⟩
      exact htail ((drop_eq_replicate_iff hfit _).mpr hall)
    · have hfit : n.toNat ≤ b.length := by omega
      rw [not_not, drop_eq_replicate_iff hfit] at htail
      constructor
      · rintro ⟨rfl⟩
        exact ⟨n, rfl, by omega, by omega, hfit, rfl, htail⟩
      · rintro ⟨_, ⟨rfl⟩, _, _, _, rfl, _⟩
        rfl

/-- A buffer that ends with at least one byte `n` has last byte `n`. -/
theorem getLast?_of_trailing {b : List Byte} {n : Byte} {k : Nat} (hk : 1 ≤ k)
    (h : ∀ j < k, b[b.length - 1 - j]? = some n) : b.getLast? = some n := by
  rw [List.getLast?_eq_getElem?]
  exact h 0 hk

/-- The hardened variant answers exactly when the fidelity variant does and its extra checks pass (R158). -/
theorem unpadH_eq_ok_iff_unpadF (b : List Byte) (m : Nat) :
    unpadH b = .ok m ↔ unpadF b = .ok m ∧
      ∃ n : Byte, b.getLast? = some n ∧ 1 ≤ n.toNat ∧ n.toNat ≤ 16 ∧ ∀ j < n.toNat, b[b.length - 1 - j]? = some n := by
  rw [unpadH_eq_ok_iff, unpadF_eq_ok_iff]
  constructor
  · rintro ⟨n, hlast, h1, h16, hfit, hm, hall⟩
    exact ⟨⟨n, hlast, hfit, hm⟩, n, hlast, h1, h16, hall⟩
  · rintro ⟨⟨n, hlast, hfit, hm⟩, n', hlast', h1, h16, hall⟩
    obtain rfl : n = n' := Option.some_inj.mp (hlast.symm.trans hlast')
    exact ⟨n, hlast, h1, h16, hfit, hm, hall⟩

/-- Settles O11: the empty buffer has no last byte, and the last byte of `b ++ [n]` is `n`. -/
theorem unpadFidelityRule : Obligations.UnpadFidelityRule := by
  refine ⟨rfl, fun b n => ?_⟩
  rw [unpadBytes_false, unpadF_of_getLast? List.getLast?_concat, List.length_append, List.length_singleton]

/-- Settles O12: the trailing bytes name the last byte, and the one code the hardened variant raises is `InvalidPadding`. -/
theorem unpadHardenedRule : Obligations.UnpadHardenedRule := by
  refine fun b => ⟨fun m => ?_, fun hnone => ?_⟩
  · rw [unpadBytes_true, unpadH_eq_ok_iff]
    refine exists_congr fun n => and_iff_right_of_imp ?_
    rintro ⟨h1, _, _, _, hall⟩
    exact getLast?_of_trailing h1 hall
  · cases h : unpadBytes b true with
    | ok m => exact absurd h (hnone m)
    | error e =>
      obtain ⟨_, rfl⟩ | ⟨hfalse, _⟩ := unpadBytes_error h
      · rfl
      · cases hfalse

/-! ### Padding and unpadding (R151, R157, R158) -/

theorem getElem?_padBytes_of_lt {b : List Byte} {i : Nat} (h : i < b.length) : (padBytes b)[i]? = b[i]? :=
  List.getElem?_append_left h

/-- The bytes of `Pad(b)` after those of `b` are the pad count. -/
theorem getElem?_padBytes_of_ge {b : List Byte} {i : Nat} (h : b.length ≤ i) (hi : i < b.length + padcount b.length) :
    (padBytes b)[i]? = some (BitVec.ofNat 8 (padcount b.length)) := by
  rw [padBytes, List.getElem?_append_right h, List.getElem?_replicate, if_pos (by omega)]

/-- A pad count fits a byte. -/
theorem toNat_padcount_byte (l : Nat) : (BitVec.ofNat 8 (padcount l)).toNat = padcount l := by
  have h := padcount_le l
  rw [BitVec.toNat_ofNat, Nat.mod_eq_of_lt (by omega)]

/-- The hardened variant takes exactly the padding off again: `Pad(b)` ends with the pad count that many times (R157). -/
theorem unpadH_padBytes (b : List Byte) : unpadH (padBytes b) = .ok b.length := by
  have h1 := padcount_pos b.length
  have h16 := padcount_le b.length
  have hall : ∀ j < padcount b.length,
      (padBytes b)[(padBytes b).length - 1 - j]? = some (BitVec.ofNat 8 (padcount b.length)) := fun j hj =>
    getElem?_padBytes_of_ge (by rw [length_padBytes]; omega) (by rw [length_padBytes]; omega)
  rw [unpadH_eq_ok_iff]
  refine ⟨_, getLast?_of_trailing h1 hall, ?_⟩
  rw [toNat_padcount_byte, length_padBytes]
  rw [length_padBytes] at hall
  exact ⟨h1, h16, by omega, by omega, hall⟩

/-- Settles O14: the hardened variant undoes the padding, so the fidelity variant, which then agrees with it, does too. -/
theorem padThenUnpadIsIdentity : Obligations.PadThenUnpadIsIdentity := by
  refine ⟨fun b h => ?_, fun b => ?_, unpadH_eq_ok_iff_unpadF⟩
  · cases h with
    | true => exact unpadH_padBytes b
    | false => exact ((unpadH_eq_ok_iff_unpadF _ _).mp (unpadH_padBytes b)).1
  · have hpos := padcount_pos b.length
    rw [length_padBytes]
    exact ⟨by omega, padcount_whole b.length⟩

/-! ### UNPAD (R155) -/

theorem unpadCheck_of_fits {s : State} (h : Fits s.params s.latch.src.toNat s.latch.slen.toNat) : unpadCheck s = none := by
  rw [fits_iff] at h
  simp [unpadCheck, Latch.srcN, Latch.slenN, h]

theorem unpadCheck_of_not_fits {s : State} (h : ¬Fits s.params s.latch.src.toNat s.latch.slen.toNat) :
    unpadCheck s = some .busFault := by
  rw [fits_iff] at h
  simp [unpadCheck, Latch.srcN, Latch.slenN, h]

/-- What an unpad keeps of the input fits `OUT_LEN` (R41). -/
theorem unpadBytes_inputBytes_lt {s : State} {h : Bool} {m : Nat} (hok : unpadBytes (inputBytes s) h = .ok m) :
    m < 2 ^ 32 := by
  have hle := unpadBytes_le hok
  rw [length_inputBytes] at hle
  exact Nat.lt_of_le_of_lt hle s.latch.slen.isLt

/-- Settles O13: the check raises before the data phase, or UNPAD ends as the latched variant answers; it stores nothing. -/
theorem unpadReportsLength : Obligations.UnpadReportsLength := by
  rintro s b rfl
  by_cases hfits : Fits s.params s.latch.src.toNat s.latch.slen.toNat
  · refine ⟨_, execUnpad_ok (unpadCheck_of_fits hfits), ?_⟩
    cases hans : unpadBytes (inputBytes s) s.latch.harden with
    | ok m =>
      obtain ⟨hok, hregs⟩ := finish_completes s (unpadBytes_inputBytes_lt hans)
      refine ⟨hregs, rfl, fun _ => rfl, fun _ => ⟨fun m' hm' => ?_, fun e he => ?_⟩, fun hn => absurd hfits hn⟩
      · obtain rfl : m = m' := Except.ok.inj (hans.symm.trans hm')
        exact hok
      · cases hans.symm.trans he
    | error e =>
      obtain ⟨_, hregs, hslot, hmem⟩ := raise_completes s e
      refine ⟨hregs, hslot, hmem, fun _ => ⟨fun m hm => ?_, fun e' he' => ?_⟩, fun hn => absurd hfits hn⟩
      · cases hans.symm.trans hm
      · obtain rfl : e = e' := Except.error.inj (hans.symm.trans he')
        exact raise_unpad_error hans s
  · obtain ⟨hcode, hregs, hslot, hmem⟩ := raise_completes s .busFault
    exact ⟨_, execUnpad_error (unpadCheck_of_not_fits hfits), hregs, hslot, hmem, fun h => absurd h hfits, fun _ => hcode⟩

/-! ### PAD (R154) -/

/-- The checks of PAD in the words of the statements (R154, R206). -/
theorem padCheck_none_iff (s : State) : padCheck s = none ↔
    Fits s.params s.latch.src.toNat s.latch.slen.toNat ∧
    Fits s.params s.latch.dst.toNat (s.latch.slen.toNat + padcount s.latch.slen.toNat) ∧
    Apart s.latch.src.toNat s.latch.slen.toNat s.latch.dst.toNat (s.latch.slen.toNat + padcount s.latch.slen.toNat) := by
  simp only [fits_iff, apart_iff]
  exact rangeCheck_none_iff _ _ _ _ _

/-- Bytes stored from an address on stand there, and every other byte is as it was (R14, R79). -/
theorem storeBytes_holds {s : State} (hm : Memory.wf s.mem) (a : Nat) (v : List Byte) :
    HoldsBytes (storeBytes a v s) a v ∧ KeepsMemoryOutside s (storeBytes a v s) a v.length :=
  ⟨Memory.byte_writeBytes_same hm a v, fun _ hk => Memory.byte_writeBytes_other s.mem a v hk⟩

theorem HoldsBytes.byte_eq {t : State} {base i : Nat} {v : List Byte} {x : Byte} (h : HoldsBytes t base v)
    (hx : v[i]? = some x) : t.mem.byte (base + i) = x := by
  obtain ⟨hi, rfl⟩ := List.getElem?_eq_some_iff.mp hx
  exact h i hi

/-- The input of a data command, byte by byte. -/
theorem getElem?_inputBytes {s : State} {i : Nat} (h : i < s.latch.slen.toNat) :
    (inputBytes s)[i]? = some (s.mem.byte (s.latch.src.toNat + i)) :=
  List.getElem?_eq_some_iff.mpr ⟨by simpa [Latch.slenN] using h, Memory.getElem_readBytes _ _ _ _ _⟩

/-- Settles O10: the checks pass and the padded length fits `OUT_LEN`; then the stored bytes, first of the input and then of the pad. -/
theorem padAppendsPadCount : Obligations.PadAppendsPadCount := by
  rintro s l n rfl rfl hp hm hsrc hdst hapart
  have hlen : (inputBytes s).length = s.latch.slen.toNat := length_inputBytes s
  have hle := padcount_le s.latch.slen.toNat
  have hpos := padcount_pos s.latch.slen.toNat
  have hc : padCheck s = none := (padCheck_none_iff s).mpr ⟨hsrc, hdst, hapart⟩
  obtain ⟨hholds, hframe⟩ := storeBytes_holds hm s.latch.dst.toNat (padBytes (inputBytes s))
  rw [length_padBytes, hlen] at hframe
  obtain ⟨hok, hregs⟩ := finish_completes (storeBytes s.latch.dst.toNat (padBytes (inputBytes s)) s)
    (outputLength_lt hp hsrc hdst hapart (Nat.add_le_add_left hle _) (Nat.lt_add_of_pos_right hpos))
  refine ⟨_, execPad_ok hc, hok, hregs, rfl, fun i hi => ?_, fun i hi => ?_, hframe⟩
  · refine hholds.byte_eq ?_
    rw [getElem?_padBytes_of_lt (by omega), getElem?_inputBytes hi]
  · rw [Nat.add_assoc]
    refine hholds.byte_eq ?_
    rw [getElem?_padBytes_of_ge (by omega) (by rw [hlen]; exact Nat.add_lt_add_left hi _), hlen]
    rfl

end Sys2Proof.Machine
end

section
/-! PROOFS of the family 42_cbc.md: the chaining block by block, its locality and its inversion (R170, R171, R173, R174), the commands
ENCRYPT, DECRYPT, CBCENC and CBCDEC (R180 to R185), and how they compose with each other and with PAD and UNPAD (R186, R187). -/

namespace Sys2Proof.Machine

/-! ### The chaining, block by block (R170, R171, R174) -/

theorem getElem_splitBlocks {k j : Nat} {b : List Byte} (h : j < (splitBlocks k b).length) :
    (splitBlocks k b)[j] = blockAt b j :=
  Option.some_inj.mp <|
    (List.getElem?_eq_getElem h).symm.trans (getElem?_splitBlocks b k j (by simpa using h))

/-- Block `j` of joined blocks, read by its number. -/
theorem getElem?_eq_blockAt_joinBlocks {bs : List Block} {j : Nat} (h : j < bs.length) :
    bs[j]? = some (blockAt (joinBlocks bs) j) := by
  rw [List.getElem?_eq_getElem h, blockAt_joinBlocks bs j h]

/-- Block `j` of `CBCEnc`, from the output block before it (R170). -/
theorem blockAt_cbcEnc (key : List Byte) (iv : Block) {p : List Byte} {k j : Nat} (hp : p.length = 16 * k) (hj : j < k) :
    blockAt (cbcEnc key iv p) j =
      Config.aesEnc key (xorBytes (blockAt p j) (if j = 0 then iv else blockAt (cbcEnc key iv p) (j - 1))) := by
  have hk : p.length / 16 = k := by omega
  have hout : ∀ i < k, (cbcEncLoop (Config.aesEnc key) iv (splitBlocks k p))[i]? = some (blockAt (cbcEnc key iv p) i) := by
    intro i hi
    rw [cbcEnc, hk]
    exact getElem?_eq_blockAt_joinBlocks (by simpa using hi)
  have hstep := getElem?_cbcEncLoop (Config.aesEnc key) iv (splitBlocks k p) j (by simpa using hj)
  rw [hout j hj, Option.some_inj, getElem_splitBlocks, List.getD_eq_getElem?_getD, hout (j - 1) (by omega)] at hstep
  exact hstep

/-- Block `j` of `CBCDec`, from the input block before it (R171). -/
theorem blockAt_cbcDec (key : List Byte) (iv : Block) {c : List Byte} {k j : Nat} (hc : c.length = 16 * k) (hj : j < k) :
    blockAt (cbcDec key iv c) j =
      xorBytes (Config.aesDec key (blockAt c j)) (if j = 0 then iv else blockAt c (j - 1)) := by
  have hk : c.length / 16 = k := by omega
  have hstep := getElem?_cbcDecLoop (Config.aesDec key) iv (splitBlocks k c) j (by simpa using hj)
  rw [getElem?_eq_blockAt_joinBlocks (by simpa using hj), Option.some_inj, getElem_splitBlocks, List.getD_eq_getElem?_getD,
    getElem?_splitBlocks c k (j - 1) (by omega), ← hk] at hstep
  exact hstep

/-- Settles O15, from the block-by-block form of the loop. -/
theorem cbcEncChainsBlocks : Obligations.CbcEncChainsBlocks := by
  intro key iv p k hp
  exact ⟨(length_cbcEnc key iv p (by omega)).trans hp, fun j hj => blockAt_cbcEnc key iv hp hj⟩

/-- Settles O16, from the block-by-block form of the loop. -/
theorem cbcDecChainsBlocks : Obligations.CbcDecChainsBlocks := by
  intro key iv c k hc
  exact ⟨(length_cbcDec key iv c (by omega)).trans hc, fun j hj => blockAt_cbcDec key iv hc hj⟩

/-- Inputs that agree up to block `j` are encrypted alike up to block `j` (R174). -/
theorem blockAt_cbcEnc_congr (key : List Byte) (iv : Block) {x y : List Byte} {k k' j : Nat} (hx : x.length = 16 * k)
    (hy : y.length = 16 * k') (hk : j < k) (hk' : j < k') (h : ∀ i ≤ j, blockAt x i = blockAt y i) :
    blockAt (cbcEnc key iv x) j = blockAt (cbcEnc key iv y) j := by
  induction j with
  | zero => rw [blockAt_cbcEnc key iv hx hk, blockAt_cbcEnc key iv hy hk', h 0 le_rfl, if_pos rfl, if_pos rfl]
  | succ j ih =>
    have hprev := ih (by omega) (by omega) fun i hi => h i (by omega)
    rw [blockAt_cbcEnc key iv hx hk, blockAt_cbcEnc key iv hy hk', h (j + 1) le_rfl, Nat.add_sub_cancel, hprev]

/-- Settles O17: a decrypted block by its two input blocks, an encrypted one by induction on its number. -/
theorem chainingIsLocal : Obligations.ChainingIsLocal := by
  intro key iv iv' x y k k' j hx hy hk hk'
  refine ⟨fun hblock hiv hprev => ?_, fun hiv hblocks => ?_⟩
  · rw [blockAt_cbcDec key iv hx hk, blockAt_cbcDec key iv' hy hk', hblock]
    split_ifs with hj
    · rw [hiv hj]
    · rw [hprev hj]
  · subst hiv
    exact blockAt_cbcEnc_congr key iv hx hy hk hk' hblocks

/-! ### The chaining undoes itself (R173) -/

/-- The decryption loop undoes the encryption loop, for every primitive that undoes itself (R18). -/
theorem cbcDecLoop_cbcEncLoop {enc dec : Block → Block} (h : ∀ b, dec (enc b) = b) (cv : Block) (ps : List Block) :
    cbcDecLoop dec cv (cbcEncLoop enc cv ps) = ps := by
  induction ps generalizing cv with
  | nil => rfl
  | cons p ps ih => rw [cbcEncLoop, cbcDecLoop, h, xorBytes_cancel, ih]

/-- `CBCDec` of joined blocks is the loop over those blocks. -/
theorem cbcDec_joinBlocks (key : List Byte) (iv : Block) (cs : List Block) :
    cbcDec key iv (joinBlocks cs) = joinBlocks (cbcDecLoop (Config.aesDec key) iv cs) := by
  rw [cbcDec, length_joinBlocks, Nat.mul_div_cancel_left _ (by decide), splitBlocks_joinBlocks]

/-- Settles O18: the loops undo each other block by block, and whole blocks joined give the input back. -/
theorem chainingRoundTrip : Obligations.ChainingRoundTrip := by
  intro key iv p hp
  rw [cbcEnc, cbcDec_joinBlocks, cbcDecLoop_cbcEncLoop (aesDec_aesEnc key)]
  exact joinBlocks_splitBlocks _ p (by omega)

/-! ### The checks of a command that reads a buffer and writes one (R206) -/

/-- A data command past its checks has its object and its whole blocks; PAD asks for neither, ENCRYPT for no whole blocks. -/
theorem earlyChecks_of_dataPhaseCheck {i : Instr} {s : State}
    (hi : i = .encrypt ∨ i = .decrypt ∨ i = .pad ∨ i = .cbcenc ∨ i = .cbcdec) (h : dataPhaseCheck i s = none) :
    (i ≠ .pad → s.slot.configured = true) ∧ (i ≠ .pad → i ≠ .encrypt → s.latch.slen.toNat % 16 = 0) := by
  rcases hi with rfl | rfl | rfl | rfl | rfl
  case inr.inr.inl => exact ⟨fun hpad => absurd rfl hpad, fun hpad => absurd rfl hpad⟩
  case inl =>
    refine ⟨fun _ => ?_, fun _ hencrypt => absurd rfl hencrypt⟩
    by_contra hslot
    simp [dataPhaseCheck, encryptCheck, eq_false_of_ne_true hslot] at h
  all_goals
    have hslot : s.slot.configured = true := by
      by_contra hslot
      simp [dataPhaseCheck, decryptCheck, cbcencCheck, cbcdecCheck, eq_false_of_ne_true hslot] at h
    refine ⟨fun _ => hslot, fun _ _ => ?_⟩
    by_contra hwhole
    cases hctlen : s.latch.ctlen <;>
      simp [dataPhaseCheck, decryptCheck, cbcencCheck, cbcdecCheck, Latch.slenN, hslot, hwhole, hctlen] at h

/-- The checks of the five commands in the words of the statements: an object held, whole blocks, both ranges in memory and apart. -/
theorem dataPhaseCheck_eq_none_iff {i : Instr} (hi : i = .encrypt ∨ i = .decrypt ∨ i = .pad ∨ i = .cbcenc ∨ i = .cbcdec)
    (s : State) : dataPhaseCheck i s = none ↔
      (i ≠ .pad → s.slot.configured = true) ∧ (i ≠ .pad → i ≠ .encrypt → s.latch.slen.toNat % 16 = 0) ∧
      Fits s.params s.latch.src.toNat s.latch.slen.toNat ∧ Fits s.params s.latch.dst.toNat (outRangeLen i s.latch) ∧
      Apart s.latch.src.toNat s.latch.slen.toNat s.latch.dst.toNat (outRangeLen i s.latch) := by
  simp only [fits_iff, apart_iff, ← rangeCheck_none_iff]
  constructor
  · intro h
    obtain ⟨hslot, hwhole⟩ := earlyChecks_of_dataPhaseCheck hi h
    exact ⟨hslot, hwhole, dataPhaseCheck_eq_rangeCheck i s hi hslot hwhole ▸ h⟩
  · rintro ⟨hslot, hwhole, hranges⟩
    rwa [dataPhaseCheck_eq_rangeCheck i s hi hslot hwhole]

/-! ### What a data command does once its checks have passed (R180 to R185) -/

/-- Only an unpad ends a command with a code after its data phase (R182, R185). -/
theorem completionOf_error {i : Instr} {s : State} {e : ErrCode} (h : completionOf i s = .error e) :
    ∃ b harden, unpadBytes b harden = .error e := by
  cases i
  case decrypt | unpad => exact ⟨_, _, h⟩
  all_goals cases h

/-- A command whose checks have passed, in the words of the statements: its bytes are written from `L.dst` on, nothing else is
touched, and then it completes. -/
theorem exec_writes {i : Instr} {s : State} (hm : Memory.wf s.mem) (hconfig : i ≠ .config) (hclear : i ≠ .clear)
    (hc : dataPhaseCheck i s = none) :
    ∃ t, exec i s = .next t ∧ KeepsRegisters s t ∧ t.slot = s.slot ∧ HoldsBytes t s.latch.dst.toNat (writtenBytes i s) ∧
      KeepsMemoryOutside s t s.latch.dst.toNat (outRangeLen i s.latch) ∧
      (∀ m, completionOf i s = .ok m → m < 2 ^ 32 → CompletesWith t 0x00 m) ∧
      (∀ e, completionOf i s = .error e → EndsWithUnpadError t e) := by
  have hslot := nextSlot_of_ne hconfig hclear s
  obtain ⟨hholds, hframe⟩ := storeBytes_holds hm s.latch.dst.toNat (writtenBytes i s)
  rw [length_writtenBytes_eq hc] at hframe
  rcases exec_cases i s with ⟨e, he, _⟩ | ⟨_, u, rfl, ⟨m, hok, hx⟩ | ⟨e, herr, hx⟩⟩
  · cases hc.symm.trans he
  · refine ⟨_, hx, complete_keepsRegisters _ m _ _ _ s, hslot, hholds, hframe, fun m' hm' hlt => ?_, fun e he => ?_⟩
    · cases hok.symm.trans hm'
      exact (finish_completes _ hlt).1
    · cases hok.symm.trans he
  · refine ⟨_, hx, complete_keepsRegisters e.byte 0 _ _ _ s, hslot, hholds, hframe, fun m hm' => ?_, fun e' he' => ?_⟩
    · cases herr.symm.trans hm'
    · cases herr.symm.trans he'
      obtain ⟨_, _, hunpad⟩ := completionOf_error herr
      exact raise_unpad_error hunpad _

/-- Settles O19: the checks pass, the padded length fits `OUT_LEN`, and it is the next multiple of 16. -/
theorem encryptWritesCiphertext : Obligations.EncryptWritesCiphertext := by
  rintro s l n rfl rfl hp hm hslot hsrc hdst hapart
  have hc : dataPhaseCheck .encrypt s = none :=
    (dataPhaseCheck_eq_none_iff (.inl rfl) s).mpr ⟨fun _ => hslot, fun _ h => absurd rfl h, hsrc, hdst, hapart⟩
  obtain ⟨t, hx, hregs, hslot', hholds, hframe, hok, _⟩ := exec_writes hm (by decide) (by decide) hc
  have hdone := hok (s.latch.slen.toNat + (16 - s.latch.slen.toNat % 16)) rfl
    (outputLength_lt hp hsrc hdst hapart (by omega) (by omega))
  have ⟨_, hlen, _⟩ := hdone
  refine ⟨t, hx, hdone, hregs, hslot', hholds, hframe, ?_, ?_⟩ <;> omega

/-- The chained plaintext is as long as the input, for whole blocks (R171). -/
theorem length_chainedPlaintext {s : State} (h : s.latch.slen.toNat % 16 = 0) :
    (chainedPlaintext s).length = s.latch.slen.toNat := by
  have hlen : (inputBytes s).length = s.latch.slen.toNat := length_inputBytes s
  rw [chainedPlaintext, length_cbcDec _ _ _ (by rwa [hlen]), hlen]

/-- Settles O20: the checks pass, so the plaintext is written whatever the unpad then answers. -/
theorem decryptWritesThenUnpads : Obligations.DecryptWritesThenUnpads := by
  rintro s l p rfl hwhole hm hslot hsrc hdst hapart rfl
  have hc : dataPhaseCheck .decrypt s = none :=
    (dataPhaseCheck_eq_none_iff (.inr (.inl rfl)) s).mpr ⟨fun _ => hslot, fun _ _ => hwhole, hsrc, hdst, hapart⟩
  obtain ⟨t, hx, hregs, hslot', hholds, hframe, hok, herr⟩ := exec_writes hm (by decide) (by decide) hc
  have hlen := length_chainedPlaintext hwhole
  refine ⟨t, hx, hregs, hslot', hlen, hholds, hframe, fun m hunpad => ?_, herr⟩
  have hle : m ≤ s.latch.slen.toNat := (unpadBytes_le hunpad).trans_eq hlen
  exact ⟨hok m hunpad (Nat.lt_of_le_of_lt hle s.latch.slen.isLt), hle⟩

/-- CBCENC and CBCDEC of whole blocks, in the words of the statements: as many bytes are written as are read, and their number is
reported (R183, R184). -/
theorem exec_cbc_writes {i : Instr} (hi : i = .cbcenc ∨ i = .cbcdec) {s : State} (hwhole : s.latch.slen.toNat % 16 = 0)
    (hm : Memory.wf s.mem) (hslot : s.slot.configured = true) (hsrc : Fits s.params s.latch.src.toNat s.latch.slen.toNat)
    (hdst : Fits s.params s.latch.dst.toNat s.latch.slen.toNat)
    (hapart : Apart s.latch.src.toNat s.latch.slen.toNat s.latch.dst.toNat s.latch.slen.toNat) :
    ∃ t, exec i s = .next t ∧ CompletesWith t 0x00 s.latch.slen.toNat ∧ KeepsRegisters s t ∧ t.slot = s.slot ∧
      HoldsBytes t s.latch.dst.toNat (writtenBytes i s) ∧
      KeepsMemoryOutside s t s.latch.dst.toNat s.latch.slen.toNat := by
  have hrange : outRangeLen i s.latch = s.latch.slen.toNat := by rcases hi with rfl | rfl <;> rfl
  have hall : completionOf i s = .ok s.latch.slen.toNat := by rcases hi with rfl | rfl <;> rfl
  have hc : dataPhaseCheck i s = none := by
    rw [dataPhaseCheck_eq_none_iff (.inr (.inr (.inr hi))), hrange]
    exact ⟨fun _ => hslot, fun _ _ => hwhole, hsrc, hdst, hapart⟩
  obtain ⟨t, hx, hregs, hslot', hholds, hframe, hok, _⟩ :=
    exec_writes hm (by rcases hi with rfl | rfl <;> decide) (by rcases hi with rfl | rfl <;> decide) hc
  rw [hrange] at hframe
  exact ⟨t, hx, hok _ hall s.latch.slen.isLt, hregs, hslot', hholds, hframe⟩

/-- Settles O21: CBCENC writes the chained input. -/
theorem cbcencWritesChainedInput : Obligations.CbcencWritesChainedInput := by
  rintro s l rfl hwhole hm hslot hsrc hdst hapart
  exact exec_cbc_writes (.inl rfl) hwhole hm hslot hsrc hdst hapart

/-- Settles O22: CBCDEC writes the chained plaintext, and no unpad follows. -/
theorem cbcdecWritesChainedPlaintext : Obligations.CbcdecWritesChainedPlaintext := by
  rintro s l rfl hwhole hm hslot hsrc hdst hapart
  exact exec_cbc_writes (.inr rfl) hwhole hm hslot hsrc hdst hapart

/-! ### Commands one after another (R186, R187) -/

/-- A command that completed with `OK`, read backwards: its checks passed, its bytes stand from `L.dst` on, and `OUT_LEN` is its
length. -/
theorem exec_ok_wrote {i : Instr} {s t : State} (hm : Memory.wf s.mem) (h : exec i s = .next t) (h0 : t.status.err = 0) :
    dataPhaseCheck i s = none ∧ HoldsBytes t s.latch.dst.toNat (writtenBytes i s) ∧
      ∃ m, completionOf i s = .ok m ∧ t.outLen = BitVec.ofNat 32 m := by
  obtain ⟨hc, m, hok, rfl⟩ := exec_ok_inv h h0
  exact ⟨hc, Memory.byte_writeBytes_same hm _ _, m, hok, rfl⟩

/-- The length that ENCRYPT and PAD report fits `OUT_LEN` (R41, R154, R181). -/
theorem outRangeLen_lt {i : Instr} {s : State} (hi : i = .encrypt ∨ i = .pad) (hp : s.params.wf = true)
    (hc : dataPhaseCheck i s = none) : outRangeLen i s.latch < 2 ^ 32 := by
  obtain ⟨_, _, hsrc, hdst, hapart⟩ := (dataPhaseCheck_eq_none_iff (by rcases hi with rfl | rfl <;> decide) s).mp hc
  refine outputLength_lt hp hsrc hdst hapart ?_ ?_ <;> rcases hi with rfl | rfl <;> simp only [outRangeLen] <;> omega

/-- A command reads what another has written: with the whole output at `L.src` and `OUT_LEN` latched as its length, it is the
input. -/
theorem inputBytes_eq_writtenBytes {i : Instr} {s t u : State} (hm : Memory.wf s.mem) (h : exec i s = .next t)
    (h0 : t.status.err = 0) (hall : completionOf i s = .ok (outRangeLen i s.latch)) (hlt : outRangeLen i s.latch < 2 ^ 32)
    (hslen : u.latch.slen = t.outLen)
    (hcopy : ∀ j < t.outLen.toNat, u.mem.byte (u.latch.src.toNat + j) = t.mem.byte (s.latch.dst.toNat + j)) :
    u.latch.slen.toNat = outRangeLen i s.latch ∧ inputBytes u = writtenBytes i s := by
  obtain ⟨hc, hholds, m, hok, hout⟩ := exec_ok_wrote hm h h0
  obtain rfl : outRangeLen i s.latch = m := Except.ok.inj (hall.symm.trans hok)
  have hlen : u.latch.slen.toNat = outRangeLen i s.latch := by
    rw [hslen, hout, BitVec.toNat_ofNat, Nat.mod_eq_of_lt hlt]
  refine ⟨hlen, List.ext_getElem ?_ fun j hj hj' => ?_⟩
  · rw [length_inputBytes, length_writtenBytes_eq hc]
    exact hlen
  · have hju : j < u.latch.slen.toNat := by simpa [Latch.slenN] using hj
    calc (inputBytes u)[j] = u.mem.byte (u.latch.src.toNat + j) := Memory.getElem_readBytes _ _ _ _ _
      _ = t.mem.byte (s.latch.dst.toNat + j) := hcopy j (hslen ▸ hju)
      _ = (writtenBytes i s)[j] := hholds j hj'

/-- `CBCDec` of what ENCRYPT writes, with ENCRYPT's key and IV, is the padded input (R173, R180). -/
theorem cbcDec_writtenBytes_encrypt (s : State) :
    cbcDec s.slot.keyBytes s.slot.iv (writtenBytes .encrypt s) = padBytes (inputBytes s) := by
  refine chainingRoundTrip _ _ _ ?_
  rw [length_padBytes]
  exact padcount_whole _

/-- Settles O25: the input of DECRYPT is the ciphertext, its chained plaintext the padded input of ENCRYPT, and either unpad variant
takes the padding off. -/
theorem encryptThenDecryptGivesPlaintext : Obligations.EncryptThenDecryptGivesPlaintext := by
  intro s t u hp hms hmu hx h0 hslot hslen hcopy hsrc hdst hapart
  obtain ⟨hc, _⟩ := exec_ok_inv hx h0
  obtain ⟨hconf, _⟩ := (dataPhaseCheck_eq_none_iff (.inl rfl) s).mp hc
  obtain ⟨hlenu, hin⟩ := inputBytes_eq_writtenBytes hms hx h0 rfl (outRangeLen_lt (.inl rfl) hp hc) hslen hcopy
  have hplain : chainedPlaintext u = padBytes (inputBytes s) := by
    rw [chainedPlaintext, hin, hslot, cbcDec_writtenBytes_encrypt]
  have hwhole : u.latch.slen.toNat % 16 = 0 := by
    rw [hlenu]
    exact padcount_whole _
  have hcu : dataPhaseCheck .decrypt u = none := (dataPhaseCheck_eq_none_iff (.inr (.inl rfl)) u).mpr
    ⟨fun _ => hslot ▸ hconf (by decide), fun _ _ => hwhole, hsrc, hdst, hapart⟩
  obtain ⟨v, hxv, _, _, hholds, _, hok, _⟩ := exec_writes hmu (by decide) (by decide) hcu
  have hlen : (inputBytes s).length = s.latch.slen.toNat := length_inputBytes s
  have hunpad : completionOf .decrypt u = .ok s.latch.slen.toNat := by
    obtain ⟨hidentity, _, _⟩ := padThenUnpadIsIdentity
    rw [completionOf, hplain, hidentity, hlen]
  refine ⟨v, hxv, hok _ hunpad s.latch.slen.isLt, fun i hi => hholds.byte_eq ?_⟩
  rw [writtenBytes, hplain, getElem?_padBytes_of_lt (by omega), getElem?_inputBytes hi]

/-- Settles O26: ENCRYPT pads the bytes PAD padded, so both chain the same padded input and report its length. -/
theorem encryptIsPadThenCbcenc : Obligations.EncryptIsPadThenCbcenc := by
  intro s t u v e w hp hms hmu hme hxs hs0 hxu hu0 hxe he0 hslen hcopy hslot heslen hecopy
  obtain ⟨hcs, _⟩ := exec_ok_inv hxs hs0
  obtain ⟨hcu, hchained, _, ⟨rfl⟩, hvout⟩ := exec_ok_wrote hmu hxu hu0
  obtain ⟨_, hcipher, _, ⟨rfl⟩, hwout⟩ := exec_ok_wrote hme hxe he0
  obtain ⟨hlenu, hin⟩ := inputBytes_eq_writtenBytes hms hxs hs0 rfl (outRangeLen_lt (.inr rfl) hp hcs) hslen hcopy
  have hine : inputBytes e = inputBytes s := inputBytes_congr (congrArg BitVec.toNat heslen) hecopy
  have hsame : writtenBytes .encrypt e = writtenBytes .cbcenc u := by
    rw [writtenBytes, writtenBytes, hin, hine, hslot, writtenBytes]
  have hout : w.outLen = v.outLen := by
    rw [hwout, hvout, Latch.slenN, Latch.slenN, heslen, hlenu]
    rfl
  refine ⟨hout, fun i hi => ?_⟩
  have hlt : i < (writtenBytes .cbcenc u).length := by
    rw [length_writtenBytes_eq hcu]
    rwa [hout, hvout, Latch.slenN, BitVec.ofNat_toNat, BitVec.setWidth_eq] at hi
  rw [hsame] at hcipher
  exact (hcipher i hlt).trans (hchained i hlt).symm

/-- Settles O27: DECRYPT chains the bytes CBCDEC chained, and unpads the plaintext UNPAD reads. -/
theorem decryptIsCbcdecThenUnpad : Obligations.DecryptIsCbcdecThenUnpad := by
  intro s t u v e w hms hmu hme hxs hs0 hxu hu0 hxe he0 hslen hharden hcopy hslot heslen hecopy
  obtain ⟨hcs, hplain, _⟩ := exec_ok_wrote hms hxs hs0
  obtain ⟨_, _, m, hunpad, hvout⟩ := exec_ok_wrote hmu hxu hu0
  obtain ⟨_, hplaine, m', hunpade, hwout⟩ := exec_ok_wrote hme hxe he0
  obtain ⟨_, hin⟩ := inputBytes_eq_writtenBytes hms hxs hs0 rfl s.latch.slen.isLt hslen hcopy
  have hine : inputBytes e = inputBytes s := inputBytes_congr (congrArg BitVec.toNat heslen) hecopy
  have hsame : writtenBytes .decrypt e = writtenBytes .cbcdec s := by
    rw [writtenBytes, writtenBytes, chainedPlaintext, chainedPlaintext, hine, hslot]
  have hcompletion : completionOf .decrypt e = completionOf .unpad u := by
    rw [completionOf, completionOf, hin, ← hsame, hharden, writtenBytes]
  have hm : m' = m := Except.ok.inj (hunpade.symm.trans (hcompletion.trans hunpad))
  refine ⟨by rw [hwout, hvout, hm], fun i hi => ?_⟩
  have hlt : i < (writtenBytes .cbcdec s).length := by rwa [length_writtenBytes_eq hcs]
  rw [hsame] at hplaine
  exact (hplaine i hlt).trans (hplain i hlt).symm

end Sys2Proof.Machine
end

section
/-! PROOFS of the family 60_exceptions.md: the order of the checks (R206), the codes of a command (R204, R205), what a failed command
leaves alone (R210), the interrupt output (R215) and the record of the fault codes (R203, log 1). -/

namespace Sys2Proof.Machine

/-! ### The checks in their order (R206) -/

/-- A failing check, in the words of the statements: the command completes with its code and nothing else changes (R210). -/
theorem exec_of_failing_check {i : Instr} {s : State} {e : ErrCode} (h : dataPhaseCheck i s = some e) :
    ∃ t, exec i s = .next t ∧ CompletesWith t e.byte 0 ∧ KeepsRegisters s t ∧ t.slot = s.slot ∧ KeepsMemory s t := by
  refine ⟨raise e s, ?_, raise_completes s e⟩
  rw [exec_eq, h]

/-- The held object is checked before the length and the ranges. -/
theorem dataPhaseCheck_of_not_configured {i : Instr} {s : State} (hi : i = .encrypt ∨ i = .decrypt ∨ i = .cbcenc ∨ i = .cbcdec)
    (h : s.slot.configured = false) : dataPhaseCheck i s = some .notConfigured := by
  rcases hi with rfl | rfl | rfl | rfl <;> simp [dataPhaseCheck, encryptCheck, decryptCheck, cbcencCheck, cbcdecCheck, h]

/-- The length is checked before the ranges; only DECRYPT looks at `CTLEN_CHECK` for its code (R182). -/
theorem dataPhaseCheck_of_partial_block {i : Instr} {s : State} (hi : i = .decrypt ∨ i = .cbcenc ∨ i = .cbcdec)
    (hslot : s.slot.configured = true) (hpart : s.latch.slen.toNat % 16 ≠ 0) :
    dataPhaseCheck i s = some (if i = .decrypt ∧ s.latch.ctlen = false then .faultPartialBlock else .malformedCiphertext) := by
  rcases hi with rfl | rfl | rfl
  case inl => cases hctlen : s.latch.ctlen <;> simp [dataPhaseCheck, decryptCheck, Latch.slenN, hslot, hpart, hctlen]
  all_goals simp [dataPhaseCheck, cbcencCheck, cbcdecCheck, Latch.slenN, hslot, hpart]

/-- Settles O23: each clause is one failing check, reached because those before it pass. -/
theorem objectThenLengthChecks : Obligations.ObjectThenLengthChecks := by
  intro i s hi
  refine ⟨fun hslot => exec_of_failing_check (dataPhaseCheck_of_not_configured hi hslot), fun hslot hencrypt hpart => ?_⟩
  have hfail := exec_of_failing_check (dataPhaseCheck_of_partial_block (hi.resolve_left hencrypt) hslot hpart)
  rwa [apply_ite ErrCode.byte] at hfail

theorem rangeCheck_of_not_fits {p : Params} {a n b m : Nat} (h : ¬Fits p a n ∨ ¬Fits p b m) :
    rangeCheck p a n b m = some .busFault := by
  rw [fits_iff, fits_iff] at h
  unfold rangeCheck
  rcases h with h | h <;> simp [h]

theorem rangeCheck_of_not_apart {p : Params} {a n b m : Nat} (hin : Fits p a n) (hout : Fits p b m) (h : ¬Apart a n b m) :
    rangeCheck p a n b m = some .bufferOverlap := by
  rw [fits_iff] at hin hout
  rw [apart_iff, Bool.not_eq_false] at h
  simp [rangeCheck, hin, hout, h]

/-- Settles O24: past the earlier checks the range check is the only one left, and it looks at the ranges before the overlap. -/
theorem rangeThenOverlapChecks : Obligations.RangeThenOverlapChecks := by
  intro i s hi hslot hwhole
  have hcheck := dataPhaseCheck_eq_rangeCheck i s hi hslot hwhole
  exact ⟨fun hrange => exec_of_failing_check (hcheck.trans (rangeCheck_of_not_fits hrange)),
    fun hin hout hover => exec_of_failing_check (hcheck.trans (rangeCheck_of_not_apart hin hout hover))⟩

/-! ### The codes of a command (R204, R205) -/

/-- Settles O31, by the three ways a command ends: both raises are of the command's row. -/
theorem commandsRaiseOnlyTheirCodes : Obligations.CommandsRaiseOnlyTheirCodes := by
  intro i s t h
  rcases exec_cases i s with ⟨e, hc, hx⟩ | ⟨_, u, _, ⟨m, _, hx⟩ | ⟨e, hc, hx⟩⟩ <;> cases hx.symm.trans h
  · exact .inr (dataPhaseCheck_mem_codesOf hc)
  · exact .inl rfl
  · exact .inr (completionOf_mem_codesOf hc)

/-! ### What a failed command leaves alone (R210) -/

/-- A raise after the data phase is an unpad's, so the command is DECRYPT or UNPAD (R155, R182). -/
theorem eq_decrypt_or_unpad_of_completionOf_error {i : Instr} {s : State} {e : ErrCode} (h : completionOf i s = .error e) :
    i = .decrypt ∨ i = .unpad := by
  cases i
  case decrypt => exact .inl rfl
  case unpad => exact .inr rfl
  all_goals cases h

/-- The three codes that an unpad raises (R152, R153, R200). -/
theorem byte_of_completionOf_error {i : Instr} {s : State} {e : ErrCode} (h : completionOf i s = .error e) :
    e.byte = 0x05 ∨ e.byte = 0x20 ∨ e.byte = 0x21 := by
  obtain ⟨_, _, hunpad⟩ := completionOf_error h
  rcases unpadBytes_error hunpad with ⟨_, rfl⟩ | ⟨_, rfl | rfl⟩ <;> decide

/-- A command keeps every byte outside its row of R90, which is empty for UNPAD. -/
theorem exec_keepsMemoryOutside {i : Instr} {s t : State} (h : exec i s = .next t) :
    KeepsMemoryOutside s t s.latch.dst.toNat (outRangeLen i s.latch) :=
  fun a hout => not_not.mp fun hne => hout (commandsWriteOnlyTheirRange i s t h a hne)

theorem keepsMemory_of_unpad {s t : State} (h : exec .unpad s = .next t) : KeepsMemory s t :=
  fun a => exec_keepsMemoryOutside h a fun hin => by simp only [outRangeLen] at hin; omega

/-- A failed command, in the words of the statements: a check failed, or an unpad raised, which had stored only for DECRYPT. -/
theorem exec_failed {i : Instr} {s t : State} (h : exec i s = .next t) (hfail : t.status.err ≠ 0x00) :
    CompletesWith t t.status.err 0 ∧ KeepsRegisters s t ∧ t.slot = s.slot ∧
    (KeepsMemory s t ∨
      (i = .decrypt ∧ (t.status.err = 0x05 ∨ t.status.err = 0x20 ∨ t.status.err = 0x21) ∧
        KeepsMemoryOutside s t s.latch.dst.toNat s.latch.slen.toNat)) := by
  rcases exec_cases i s with ⟨e, _, hx⟩ | ⟨_, u, rfl, ⟨m, _, hx⟩ | ⟨e, hc, hx⟩⟩ <;> cases hx.symm.trans h
  · obtain ⟨hcode, hregs, hslot, hmem⟩ := raise_completes s e
    exact ⟨hcode, hregs, hslot, .inl hmem⟩
  · exact absurd rfl hfail
  · obtain ⟨hcode, _, _, _⟩ := raise_completes (setSlot (nextSlot i s) (storeBytes s.latch.dstN (writtenBytes i s) s)) e
    have hregs := complete_keepsRegisters e.byte 0 (nextSlot i s) s.latch.dstN (writtenBytes i s) s
    rcases eq_decrypt_or_unpad_of_completionOf_error hc with rfl | rfl
    · exact ⟨hcode, hregs, rfl, .inr ⟨rfl, byte_of_completionOf_error hc, exec_keepsMemoryOutside h⟩⟩
    · exact ⟨hcode, hregs, rfl, .inl (keepsMemory_of_unpad h)⟩

/-- Settles O30: an illegal word raises and does nothing else; a legal one is its command's. -/
theorem failedCommandsHaveNoOtherEffect : Obligations.FailedCommandsHaveNoOtherEffect := by
  intro s t h hfail
  rcases perform_cases s with ⟨i, hd, hp⟩ | ⟨_, hp⟩
  · obtain ⟨hcode, hregs, hslot, hmem⟩ := exec_failed (hp.symm.trans h) hfail
    refine ⟨hcode, hregs, hslot, hmem.imp_right ?_⟩
    rintro ⟨rfl, hunpad⟩
    exact ⟨hd, hunpad⟩
  · cases hp.symm.trans h
    obtain ⟨hcode, hregs, hslot, hmem⟩ := raise_completes s .illegalCommand
    exact ⟨hcode, hregs, hslot, .inl hmem⟩

/-! ### The interrupt output (R215) -/

/-- The engine's step sets `DONE` and leaves the registers alone, whatever the latched word (R130, R210, R211). -/
theorem perform_completes {s t : State} (h : perform s = .next t) : t.status.done = true ∧ KeepsRegisters s t := by
  rcases perform_cases s with ⟨i, _, hp⟩ | ⟨_, hp⟩
  · obtain ⟨u, hx, _, hdone, hregs⟩ := everyCommandEndsInOneCompletion i s
    cases (hp.trans hx).symm.trans h
    exact ⟨hdone, hregs⟩
  · cases hp.symm.trans h
    obtain ⟨_, hregs, _, _⟩ := raise_completes s .illegalCommand
    exact ⟨rfl, hregs⟩

theorem irq_of_done {s : State} (h : s.status.done = true) : irq s = s.ctrl.ie := by rw [irq, h, Bool.and_true]

theorem irq_of_not_done {s : State} (h : s.status.done = false) : irq s = false := by rw [irq, h, Bool.and_false]

/-- A command lost leaves the output as it was, an issue clears it with `DONE`. -/
theorem irq_writeCmd (v : Word) (s : State) : irq (writeCmd v s) = (s.status.busy && irq s) := by
  cases hb : s.status.busy with
  | true => rw [writeCmd_busy hb, Bool.true_and]; rfl
  | false => rw [writeCmd_idle hb, Bool.false_and]; exact irq_of_not_done rfl

/-- Settles O53: what each event makes of `IE` and of `DONE`. -/
theorem interruptIsLevel : Obligations.InterruptIsLevel := by
  intro s
  refine ⟨rfl, fun t h => ?_, fun v hack => ?_, fun v => rfl, fun v => irq_writeCmd v s, rfl⟩
  · obtain ⟨hdone, _, hctrl, _⟩ := perform_completes h
    rw [irq_of_done hdone, hctrl]
  · exact irq_of_not_done (s := ackStatus v s) (by simp [hack])

/-- Settles O57: the access and the turn come off their lists, and neither is part of the output recorded. -/
theorem irqSampleRecordsOutput : Obligations.IrqSampleRecordsOutput := by
  intro s rest ht hh
  calc step s = .next (record (.irq (irq (popTurn s))) (popHost (popTurn s))) := by
        rw [hostsTurn_step ht]; simp only [hostMove, popTurn_env, hh]
    _ = _ := by rw [popHost_popTurn hh]; rfl

/-! ### The record of the fault codes (R203, R261, log 1) -/

/-- A completion adds its own code to the record. -/
theorem complete_records (code : Byte) (m : Nat) (s : State) :
    (complete code m s).faultSeen = (s.faultSeen || decide (0x20 ≤ (complete code m s).status.err.toNat)) := rfl

/-- The data phase leaves the record alone, and a command completes once. -/
theorem exec_records {i : Instr} {s t : State} (h : exec i s = .next t) :
    t.faultSeen = (s.faultSeen || decide (0x20 ≤ t.status.err.toNat)) := by
  rcases exec_cases i s with ⟨e, _, hx⟩ | ⟨_, u, rfl, ⟨m, _, hx⟩ | ⟨e, _, hx⟩⟩ <;> cases hx.symm.trans h
  · exact complete_records e.byte 0 s
  · exact complete_records 0x00 m _
  · exact complete_records e.byte 0 _

theorem perform_records {s t : State} (h : perform s = .next t) :
    t.faultSeen = (s.faultSeen || decide (0x20 ≤ t.status.err.toNat)) := by
  rcases perform_cases s with ⟨_, _, hp⟩ | ⟨_, hp⟩ <;> rw [hp] at h
  · exact exec_records h
  · cases h
    exact complete_records ErrCode.illegalCommand.byte 0 s

@[simp] theorem platformReset_faultSeen (s : State) : (platformReset s).faultSeen = s.faultSeen := by simp [platformReset]

@[simp] theorem writeOffset_faultSeen (off : Nat) (v : Word) (s : State) : (writeOffset off v s).faultSeen = s.faultSeen := by
  rcases writeOffset_cases off v s with h | h | h | ⟨_, _, h⟩ | ⟨_, _, h⟩ | ⟨_, h⟩ <;> rw [h] <;> rfl

theorem hostMove_faultSeen {s t : State} (h : hostMove s = .next t) : t.faultSeen = s.faultSeen := by
  rcases hostMove_cases h with ⟨_, rfl⟩ | ⟨_, off, v, _, _, rfl⟩ | ⟨_, rfl⟩ | ⟨_, rfl⟩ | ⟨_, _, _, _, _, rfl⟩ <;> simp

/-- Settles O55: the engine's turn with a command in flight is its completion; no other kind of step touches the record. -/
theorem faultCodesAreRecorded : Obligations.FaultCodesAreRecorded := by
  intro s t h
  refine ⟨fun ht hb => perform_records (s := popTurn s) ((enginesTurn_step ht hb).symm.trans h), fun hother => ?_⟩
  rcases step_cases s with ⟨_, hstep⟩ | ⟨ht, hb, _⟩ | ⟨_, _, hstep⟩ | ⟨_, hstep⟩
  · cases hstep.symm.trans h
    simp
  · exact absurd ⟨ht, hb⟩ hother
  · cases hstep.symm.trans h
    rfl
  · exact hostMove_faultSeen (s := popTurn s) (hstep.symm.trans h)

end Sys2Proof.Machine
end

section
/-! PROOFS of the family 70_reset_and_hazards.md: the reset and data memory (R240, R241), what changes results (R256), the end of a
command in flight (R252), and the end of a run (R261). -/

namespace Sys2Proof.Machine

/-! ### The reset and data memory (R240, R241) -/

/-- In the reset's turn the step is the platform's reset, whatever is in flight. -/
theorem resetsTurn_step {s : State} (h : ResetsTurn s) : step s = .next (platformReset (popTurn s)) := by
  rcases step_cases s with ⟨_, hs⟩ | ⟨he, _⟩ | ⟨he, _⟩ | ⟨ht, _⟩
  · exact hs
  · exact absurd h he.not_resetsTurn
  · exact absurd h he.not_resetsTurn
  · unfold ResetsTurn at h
    rcases ht with ht | ⟨ht, _⟩ <;> simp [ht] at h

/-- A byte that scrambling changes is one that a command in flight writes. -/
theorem scramble_changes_byte {s : State} {a : Nat} (hne : (scramble s).mem.byte a ≠ s.mem.byte a) :
    s.status.busy = true ∧ (footprint s).writesByte a = true := by
  unfold scramble at hne
  split at hne
  next hb =>
    refine ⟨hb, ?_⟩
    by_contra hout
    simp only [Footprint.writesByte, List.any_eq_true, Span.holds_iff, not_exists, not_and] at hout
    exact hne (foldl_scrambleSpan_byte _ s fun r hr hin => hout r hr hin.1 hin.2)
  next => exact absurd rfl hne

/-- With a command in flight past its checks, scrambling writes the next free bytes over its row of R90, which is one range at most. -/
theorem scramble_mem_of_busy {s : State} {i : Instr} (hb : s.status.busy = true) (hd : decode s.latch.word = .ok i)
    (hc : dataPhaseCheck i s = none) :
    (scramble s).mem = s.mem.writeBytes s.latch.dst.toNat (freeBytes s.env.draws (outRangeLen i s.latch)) := by
  simp only [scramble, hb, footprint, hd, instrFootprint, hc]
  cases i <;> rfl

/-- Settles O41: the reset scrambles the write range of the command in flight and leaves the rest of data memory alone. -/
theorem resetTouchesOnlyWriteRange : Obligations.ResetTouchesOnlyWriteRange := by
  intro s ht
  refine ⟨_, resetsTurn_step ht, rfl, fun a hne => ?_, fun i hm hb hd hc k hk => ?_⟩
  · obtain ⟨hb, hw⟩ := scramble_changes_byte (s := popTurn s) hne
    obtain ⟨i, hd, _, hrow⟩ := (footprint_writesByte_iff_exists (popTurn s) a).mp hw
    exact ⟨hb, i, hd, hrow⟩
  · have hc' : dataPhaseCheck i (popTurn s) = none := (dataPhaseCheck_congr (s := s) (t := popTurn s) i rfl rfl rfl).trans hc
    have hk' : k < (freeBytes s.env.draws (outRangeLen i s.latch)).length := by rwa [length_freeBytes]
    rw [platformReset_mem, scramble_mem_of_busy (s := popTurn s) hb hd hc']
    exact (Memory.byte_writeBytes_same hm _ _ k hk').trans (getElem_freeBytes _ _ k hk')

/-! ### What changes results (R256) -/

/-- A host access that changes `ERR` or `OUT_LEN` issues a command. -/
theorem hostMove_changes_results {s t : State} (h : hostMove s = .next t)
    (hne : t.status.err ≠ s.status.err ∨ t.outLen ≠ s.outLen) : t.status.busy = true := by
  rcases hostMove_cases h with ⟨_, rfl⟩ | ⟨_, off, v, _, _, rfl⟩ | ⟨_, rfl⟩ | ⟨_, rfl⟩ | ⟨_, _, _, _, _, rfl⟩
  case inr.inl =>
    rcases writeOffset_cases off v (popHost s) with hw | hw | hw | ⟨_, _, hw⟩ | ⟨_, _, hw⟩ | ⟨_, hw⟩ <;> rw [hw] at hne ⊢
    case inr.inr.inr.inl => rfl
    all_goals simp at hne
  all_goals simp at hne

/-- A host access that changes a byte of data memory is the write of that byte. -/
theorem hostMove_changes_byte {s t : State} {a : Nat} (h : hostMove s = .next t) (hne : t.mem.byte a ≠ s.mem.byte a) :
    ∃ b, s.env.host.head? = some (.memWrite a b) := by
  rcases hostMove_cases h with ⟨_, rfl⟩ | ⟨_, _, _, _, _, rfl⟩ | ⟨_, rfl⟩ | ⟨_, rfl⟩ | ⟨a', b, hhead, _, _, rfl⟩
  case inr.inr.inr.inr =>
    obtain rfl : a = a' := by
      by_contra hother
      exact hne (Memory.byte_store_other s.mem b hother)
    exact ⟨b, hhead⟩
  all_goals simp at hne

/-- Settles O34, by the four kinds of step: with nothing in flight a reset scrambles no byte, the engine does nothing, and a host access
that changes a result is an issue or the write of the byte. -/
theorem resultsAreStable : Obligations.ResultsAreStable := by
  intro s t h hidle
  rcases step_cases s with ⟨hr, hstep⟩ | ⟨_, hb, _⟩ | ⟨_, _, hstep⟩ | ⟨ht, hstep⟩
  · cases hstep.symm.trans h
    refine ⟨fun _ => .inl hr, fun a hne => ?_⟩
    have hb : s.status.busy = true := (scramble_changes_byte (s := popTurn s) hne).1
    simp [hidle] at hb
  · simp [hidle] at hb
  · cases hstep.symm.trans h
    simp
  · have hmove : hostMove (popTurn s) = .next t := hstep.symm.trans h
    refine ⟨fun hne => .inr ⟨ht, ?_⟩, fun a hne => ⟨ht, hostMove_changes_byte (s := popTurn s) hmove hne⟩⟩
    obtain ⟨v, hhead, _⟩ := hostMove_starts (s := popTurn s) hmove hidle (hostMove_changes_results (s := popTurn s) hmove hne)
    exact ⟨v, hhead⟩

/-! ### The end of a command in flight (R252) -/

/-- With a command in flight, the engine's step and a reset end it; the host's step keeps it in flight and uses up a turn of the schedule,
since with none left the next event is the engine's. -/
theorem step_of_busy {s t : State} (hb : s.status.busy = true) (h : step s = .next t) :
    ((EnginesTurn s ∨ ResetsTurn s) ∧ t.status.busy = false) ∨
    (t.status.busy = true ∧ t.env.sched.length + 1 = s.env.sched.length) := by
  rcases step_cases s with ⟨hr, hstep⟩ | ⟨he, _, hstep⟩ | ⟨_, hidle, _⟩ | ⟨ht, hstep⟩
  · cases hstep.symm.trans h
    exact .inl ⟨.inr hr, rfl⟩
  · exact .inl ⟨.inl he, perform_idle (hstep.symm.trans h)⟩
  · simp [hb] at hidle
  · have hmove : hostMove (popTurn s) = .next t := hstep.symm.trans h
    refine .inr ⟨hostMove_busy hmove hb, ?_⟩
    rw [hostMove_sched hmove]
    rcases ht with ht | ⟨_, hidle⟩
    · obtain ⟨rest, hs⟩ := List.head?_eq_some_iff.mp ht
      simp [hs]
    · simp [hb] at hidle

/-- Settles O54, by induction on the steps of the run: each step ends the command or uses up a turn. -/
theorem commandInFlightEnds : Obligations.CommandInFlightEnds := by
  intro s u n hb hn hrun
  induction n generalizing s with
  | zero => omega
  | succ n ih =>
    obtain ⟨s', hs, hrun'⟩ := run_next_inv hrun
    rcases step_of_busy hb hs with ⟨hturn, hidle⟩ | ⟨hb', hlen⟩
    · exact ⟨0, s, s', Nat.zero_le _, rfl, hb, hturn, hs, hidle⟩
    · obtain ⟨k, v, w, hk, hv, hend⟩ := ih s' hb' (by omega) hrun'
      exact ⟨k + 1, v, w, by omega, (run_next hs k).trans hv, hend⟩

/-! ### The end of a run (R261) -/

/-- A run that has ended at its first point ends there. -/
theorem endsIn_of_ended {s : State} (he : Ended s) (t : State) : EndsIn s t ↔ t = s := by
  constructor
  · rintro ⟨k, hrun, _, hfirst⟩
    cases k with
    | zero => cases hrun; rfl
    | succ k => exact absurd he (hfirst 0 (Nat.succ_pos k) s rfl)
  · rintro rfl
    exact ⟨0, rfl, he, fun j hj => absurd hj (Nat.not_lt_zero j)⟩

/-- A run that has not ended at its first point ends where the run from the next state ends. -/
theorem endsIn_of_not_ended {s : State} (he : ¬Ended s) (t : State) : EndsIn s t ↔ ∃ s', step s = .next s' ∧ EndsIn s' t := by
  constructor
  · rintro ⟨k, hrun, hend, hfirst⟩
    cases k with
    | zero => cases hrun; exact absurd hend he
    | succ k =>
      obtain ⟨s', hs, hrun'⟩ := run_next_inv hrun
      refine ⟨s', hs, k, hrun', hend, fun j hj u hu => ?_⟩
      exact hfirst (j + 1) (Nat.succ_lt_succ hj) u ((run_next hs j).trans hu)
  · rintro ⟨s', hs, k, hrun, hend, hfirst⟩
    refine ⟨k + 1, (run_next hs k).trans hrun, hend, fun j hj u hu => ?_⟩
    cases j with
    | zero => cases hu; exact he
    | succ j => exact hfirst j (Nat.lt_of_succ_lt_succ hj) u ((run_next hs j).symm.trans hu)

/-- Of two points where one run ends, neither comes before the other. -/
theorem EndsIn.unique {s t u : State} (ht : EndsIn s t) (hu : EndsIn s u) : u = t := by
  obtain ⟨k, hrunt, hendt, hfirstt⟩ := ht
  obtain ⟨l, hrunu, hendu, hfirstu⟩ := hu
  rcases Nat.lt_trichotomy k l with hlt | rfl | hlt
  · exact absurd hendt (hfirstu k hlt t hrunt)
  · cases hrunt.symm.trans hrunu
    rfl
  · exact absurd hendu (hfirstt l hlt u hrunu)

/-- Settles O58: a run's end from an ended state, from any other, and that there is one at most. -/
theorem runHasOneEndState : Obligations.RunHasOneEndState := fun _ t =>
  ⟨fun he => endsIn_of_ended he t, fun he => endsIn_of_not_ended he t, fun _ => EndsIn.unique⟩

end Sys2Proof.Machine
end
